-- ==== Sys2Proof/Word.lean ====
section
/-! DEFINITION. The machine's one word type: every register, address, memory cell and instruction byte is 8 bits
(spec 00_scope.md R4, R5; 10_state.md R10, R14; 20_memory.md R30). -/

namespace Sys2Proof

/-- A byte, bits numbered 7 down to 0 (R5). Read as a number it is unsigned, 0 to 255 (42_alu.md R80). -/
abbrev Byte := BitVec 8

end Sys2Proof
end

