-- ==== Sys2Proof/Config.lean ====
section
/-! DEFINITION. The parameters of the hardware, spec 00_scope.md R4. There is no free value: the spec leaves no result of
any instruction open (93_implementation_defined.md section 1). -/

namespace Sys2Proof.Config

/-- `SP_INDEX` (R4, R12, D2). DESIGN CHOICE of the spec, kept at its default: assumption 1. -/
def spIndex : Fin 8 := 7

/-- `SP_RESET` (R4, R26). -/
def spReset : Byte := 0xF4

/-- `PC_RESET` (R4, R26, R132). -/
def pcReset : Byte := 0x00

/-- `FL_RESET` (R4, R19, D11). The spec's default: assumption 2. -/
def flReset : BitVec 3 := 0b000

/-- What a byte that neither the loader nor an instruction has written reads as (20_memory.md R31). -/
def memReset : Byte := 0x00

/-- `MEM_SIZE` (R4, R20). -/
def memSize : Nat := 256

/-- `LOAD_BASE`: the address of the first program byte (R4, R133). -/
def loadBase : Nat := 0

/-- `MAX_LEN`: the bytes one fetch reads, whatever the instruction's length (R4, R61). -/
def maxLen : Nat := 3

/-- `TST_PASS_TEXT` (R4, D10): assumption 3. -/
def tstPassText : List Char := ['P', 'A', 'S', 'S']

/-- `TST_FAIL_TEXT` (R4, D10): assumption 3. -/
def tstFailText : List Char := ['F', 'A', 'I', 'L']

/-- The character that ends a line of output (10_state.md R23 says "a line end"). PRESUMED: assumption 12. -/
def lineEnd : Char := '\n'

end Sys2Proof.Config
end

