-- ==== Sys2Proof/Syntax.lean ====
section
/-! DEFINITION. The instructions: one constructor per row of spec/opcode_table.json, the four illegal patterns included
(assumption 11). An instruction keeps the operand count `v`, for an ALU row the ignored bit 4, and the operand bytes its
form uses (30_encoding.md R46, R48); an operand byte its form does not use is no part of it. Register operand bytes stay
whole bytes: a value above 7 is a legal encoding that raises an error when it runs (R59, R67). -/

namespace Sys2Proof

/-- The operand-count field `v` of a byte that is not illegal: 0, 1 or 2 (30_encoding.md R46). -/
inductive OperandCount
  | zero
  | one
  | two
  deriving DecidableEq, Repr

/-- The class an opcode byte selects (30_encoding.md R47). -/
inductive OpClass
  | primary
  | alu
  | control
  deriving DecidableEq, Repr

/-- The names of the opcode table's rows, without their operands. -/
inductive Operation
  | halt | loadImmediate | push | pop | print
  | add | sub | mul | div | mod | inc | dec | cmp | and | not | or | xor | shl | shr | tst
  | call | ret | jmp | jeq | jne
  | illegalCount | illegalAlu | illegalControl | illegalPrimary
  deriving DecidableEq, Repr

/-- One constructor per row of the opcode table. `v` is the operand count, `c` bit 4 of an ALU byte (ignored, R47), `a`
the byte after the opcode and `b` the byte after that (R48). -/
inductive Instr
  -- Primary (R70 to R74)
  | halt (v : OperandCount)
  | loadImmediate (v : OperandCount) (a imm : Byte)
  | push (v : OperandCount) (a : Byte)
  | pop (v : OperandCount) (a : Byte)
  | print (v : OperandCount) (a : Byte)
  -- ALU (R81 to R95)
  | add (v : OperandCount) (c : Bool) (a b : Byte)
  | sub (v : OperandCount) (c : Bool) (a b : Byte)
  | mul (v : OperandCount) (c : Bool) (a b : Byte)
  | div (v : OperandCount) (c : Bool) (a b : Byte)
  | mod (v : OperandCount) (c : Bool) (a b : Byte)
  | inc (v : OperandCount) (c : Bool) (a : Byte)
  | dec (v : OperandCount) (c : Bool) (a : Byte)
  | cmp (v : OperandCount) (c : Bool) (a b : Byte)
  | and (v : OperandCount) (c : Bool) (a b : Byte)
  | not (v : OperandCount) (c : Bool) (a : Byte)
  | or (v : OperandCount) (c : Bool) (a b : Byte)
  | xor (v : OperandCount) (c : Bool) (a b : Byte)
  | shl (v : OperandCount) (c : Bool) (a b : Byte)
  | shr (v : OperandCount) (c : Bool) (a b : Byte)
  | tst (v : OperandCount) (c : Bool) (a b : Byte)
  -- Control flow (R101 to R105)
  | call (v : OperandCount) (a : Byte)
  | ret (v : OperandCount)
  | jmp (v : OperandCount) (a : Byte)
  | jeq (v : OperandCount) (a : Byte)
  | jne (v : OperandCount) (a : Byte)
  -- The illegal patterns (R53, R54)
  | illegalCount (low : BitVec 6)
  | illegalAlu (v : OperandCount) (c : Bool)
  | illegalControl (v : OperandCount) (code : BitVec 4)
  | illegalPrimary (v : OperandCount) (code : BitVec 4)
  deriving DecidableEq, Repr

end Sys2Proof
end

