-- ==== Sys2Proof/WellFormed.lean ====
section
/-! DEFINITION. Which terms of `Instr` stand for an encoding. The one thing the types leave open is the code of the two
catch-all illegal rows: a code that its class's table lists is an instruction, not an illegal pattern (30_encoding.md R52,
R54). A register operand byte above 7 is well formed: it decodes, and raises `AddressOutOfRange` when it runs (R59). -/

namespace Sys2Proof

/-- The codes of the primary table (30_encoding.md R52). -/
def primaryCodes : List (BitVec 4) := [0b0001, 0b0010, 0b0101, 0b0110, 0b0111]

/-- The codes of the control-flow table (30_encoding.md R52). -/
def controlCodes : List (BitVec 4) := [0b0000, 0b0001, 0b0100, 0b0101, 0b0110]

/-- The illegal primary row is for unlisted codes only (R54, R75); so is the illegal control-flow row (R54, R107). -/
def Instr.wf : Instr → Bool
  | .illegalPrimary _ code => !primaryCodes.contains code
  | .illegalControl _ code => !controlCodes.contains code
  | .halt _ | .loadImmediate _ _ _ | .push _ _ | .pop _ _ | .print _ _ => true
  | .add _ _ _ _ | .sub _ _ _ _ | .mul _ _ _ _ | .div _ _ _ _ | .mod _ _ _ _ => true
  | .inc _ _ _ | .dec _ _ _ | .cmp _ _ _ _ | .and _ _ _ _ | .not _ _ _ | .or _ _ _ _ => true
  | .xor _ _ _ _ | .shl _ _ _ _ | .shr _ _ _ _ | .tst _ _ _ _ => true
  | .call _ _ | .ret _ | .jmp _ _ | .jeq _ _ | .jne _ _ => true
  | .illegalCount _ | .illegalAlu _ _ => true

end Sys2Proof
end

