-- ==== Sys2Proof/Decode.lean ====
section
/-! DEFINITION. Decoding by field (spec 30_encoding.md R45 to R59, 40_fetch_decode_dispatch.md R63 to R66), the opcode
table as a second description of the same map (spec/opcode_table.json), and the encoder. Decoding is total on every three
bytes: an illegal opcode byte decodes to the constructor of its illegal row, by name, and never to a neighbour. -/

namespace Sys2Proof

/-! ## The fields of the opcode byte (R46, R63) -/

/-- `v = ir[7:6]`. -/
def fieldCount (ir : Byte) : BitVec 2 := ir.extractLsb' 6 2

/-- `A = ir[5]`. -/
def fieldAlu (ir : Byte) : Bool := ir.getLsbD 5

/-- `C = ir[4]`. -/
def fieldControl (ir : Byte) : Bool := ir.getLsbD 4

/-- `code = ir[3:0]`. -/
def fieldCode (ir : Byte) : BitVec 4 := ir.extractLsb' 0 4

/-- The operand count of a legal byte; the value 3 is illegal (R46, R53). -/
def operandCount? (v : BitVec 2) : Option OperandCount :=
  match v with
  | 0b00#2 => some .zero
  | 0b01#2 => some .one
  | 0b10#2 => some .two
  | _ => none

/-- The bits `v` of an operand count (R46). -/
def OperandCount.bits : OperandCount → BitVec 2
  | .zero => 0b00
  | .one => 0b01
  | .two => 0b10

/-- `len = v + 1` (R45, R63). -/
def OperandCount.length (v : OperandCount) : Nat := v.bits.toNat + 1

/-! ## Decoding: class first, then the code in the class's table (R47, R52, R64 to R66) -/

/-- The primary table (R52); an unlisted code is the illegal row (R54, R75). -/
def decodePrimary (v : OperandCount) (code : BitVec 4) (a b : Byte) : Instr :=
  match code with
  | 0b0001#4 => .halt v
  | 0b0010#4 => .loadImmediate v a b
  | 0b0101#4 => .push v a
  | 0b0110#4 => .pop v a
  | 0b0111#4 => .print v a
  | _ => .illegalPrimary v code

/-- The ALU table (R52); 1110 is its one unlisted code (R54, R96). -/
def decodeAlu (v : OperandCount) (c : Bool) (code : BitVec 4) (a b : Byte) : Instr :=
  match code with
  | 0b0000#4 => .add v c a b
  | 0b0001#4 => .sub v c a b
  | 0b0010#4 => .mul v c a b
  | 0b0011#4 => .div v c a b
  | 0b0100#4 => .mod v c a b
  | 0b0101#4 => .inc v c a
  | 0b0110#4 => .dec v c a
  | 0b0111#4 => .cmp v c a b
  | 0b1000#4 => .and v c a b
  | 0b1001#4 => .not v c a
  | 0b1010#4 => .or v c a b
  | 0b1011#4 => .xor v c a b
  | 0b1100#4 => .shl v c a b
  | 0b1101#4 => .shr v c a b
  | 0b1111#4 => .tst v c a b
  | _ => .illegalAlu v c

/-- The control-flow table (R52); an unlisted code is the illegal row (R54, R107). -/
def decodeControl (v : OperandCount) (code : BitVec 4) (a : Byte) : Instr :=
  match code with
  | 0b0000#4 => .call v a
  | 0b0001#4 => .ret v
  | 0b0100#4 => .jmp v a
  | 0b0101#4 => .jeq v a
  | 0b0110#4 => .jne v a
  | _ => .illegalControl v code

/-- The class an opcode byte selects, ALU before control flow before primary (R47, R65). -/
def classOf (ir : Byte) : OpClass :=
  if fieldAlu ir then .alu else if fieldControl ir then .control else .primary

/-- The instruction of the three fetched bytes (R60 steps 3 to 6): the length check comes before the class (R64). -/
def decodeBytes (ir a b : Byte) : Instr :=
  match operandCount? (fieldCount ir) with
  | none => .illegalCount (ir.extractLsb' 0 6)
  | some v =>
    match classOf ir with
    | .alu => decodeAlu v (fieldControl ir) (fieldCode ir) a b
    | .control => decodeControl v (fieldCode ir) a
    | .primary => decodePrimary v (fieldCode ir) a b

/-- Why a list of bytes is not read as an instruction: the fetch reads three bytes whatever the length (R45, R61). -/
inductive DecodeRefusal
  | fewerThanThreeBytes
  deriving DecidableEq, Repr

/-- The instruction at the head of a list of bytes; the bytes after the third play no part. -/
def decode : List Byte → Except DecodeRefusal Instr
  | ir :: a :: b :: _ => .ok (decodeBytes ir a b)
  | _ => .error .fewerThanThreeBytes

/-! ## Encoding, from the same tables (R46, R48, R52) -/

/-- `v v A C c c c c`, bit 7 on the left (R46). -/
def opcodeByte (v : BitVec 2) (alu control : Bool) (code : BitVec 4) : Byte :=
  v ++ BitVec.ofBool alu ++ BitVec.ofBool control ++ code

/-- A byte of the primary class (R47, R52). -/
def primaryByte (v : OperandCount) (code : BitVec 4) : Byte := opcodeByte v.bits false false code

/-- A byte of the ALU class; `c` is the ignored bit 4 (R47, R52). -/
def aluByte (v : OperandCount) (c : Bool) (code : BitVec 4) : Byte := opcodeByte v.bits true c code

/-- A byte of the control-flow class (R47, R52). -/
def controlByte (v : OperandCount) (code : BitVec 4) : Byte := opcodeByte v.bits false true code

/-- The opcode byte `ir` of an instruction. -/
def Instr.opcode : Instr → Byte
  | .halt v => primaryByte v 0b0001
  | .loadImmediate v _ _ => primaryByte v 0b0010
  | .push v _ => primaryByte v 0b0101
  | .pop v _ => primaryByte v 0b0110
  | .print v _ => primaryByte v 0b0111
  | .add v c _ _ => aluByte v c 0b0000
  | .sub v c _ _ => aluByte v c 0b0001
  | .mul v c _ _ => aluByte v c 0b0010
  | .div v c _ _ => aluByte v c 0b0011
  | .mod v c _ _ => aluByte v c 0b0100
  | .inc v c _ => aluByte v c 0b0101
  | .dec v c _ => aluByte v c 0b0110
  | .cmp v c _ _ => aluByte v c 0b0111
  | .and v c _ _ => aluByte v c 0b1000
  | .not v c _ => aluByte v c 0b1001
  | .or v c _ _ => aluByte v c 0b1010
  | .xor v c _ _ => aluByte v c 0b1011
  | .shl v c _ _ => aluByte v c 0b1100
  | .shr v c _ _ => aluByte v c 0b1101
  | .tst v c _ _ => aluByte v c 0b1111
  | .call v _ => controlByte v 0b0000
  | .ret v => controlByte v 0b0001
  | .jmp v _ => controlByte v 0b0100
  | .jeq v _ => controlByte v 0b0101
  | .jne v _ => controlByte v 0b0110
  | .illegalCount low => (0b11#2 ++ low : BitVec 8)
  | .illegalAlu v c => aluByte v c 0b1110
  | .illegalControl v code => controlByte v code
  | .illegalPrimary v code => primaryByte v code

/-- The operand bytes an instruction's form uses, in the order fetched (R48): none (N), `a` (R), `a` and `b` (RR, RI). -/
def Instr.operandBytes : Instr → List Byte
  | .loadImmediate _ a b => [a, b]
  | .add _ _ a b | .sub _ _ a b | .mul _ _ a b | .div _ _ a b | .mod _ _ a b => [a, b]
  | .cmp _ _ a b | .and _ _ a b | .or _ _ a b | .xor _ _ a b => [a, b]
  | .shl _ _ a b | .shr _ _ a b | .tst _ _ a b => [a, b]
  | .push _ a | .pop _ a | .print _ a | .inc _ _ a | .dec _ _ a | .not _ _ a => [a]
  | .call _ a | .jmp _ a | .jeq _ a | .jne _ a => [a]
  | .halt _ | .ret _ => []
  | .illegalCount _ | .illegalAlu _ _ | .illegalControl _ _ | .illegalPrimary _ _ => []

/-- The length `v + 1` an instruction's opcode byte tells; none for `v = 3`, which has no length (R45, R53). -/
def Instr.length? (i : Instr) : Option Nat := (operandCount? (fieldCount i.opcode)).map OperandCount.length

/-- The words of an instruction: its opcode byte and the operand bytes it uses, filled up with zero bytes to its length
where an alias is longer than that (R51; the fill is assumption 11). An alias shorter than what it uses (0x02, R51) still
lists the bytes it reads. -/
def encode (i : Instr) : List Byte :=
  let used := i.opcode :: i.operandBytes
  used ++ List.replicate (i.length?.getD 1 - used.length) 0

/-! ## The opcode table (spec/opcode_table.json), first match wins -/

/-- A row: `(ir AND mask) = match`. -/
structure OpcodeRow where
  operation : Operation
  pattern : Byte
  mask : Byte
  deriving DecidableEq, Repr

/-- Order 0: the row of `v = 3`. -/
def opcodeRowsLength : List OpcodeRow := [⟨.illegalCount, 0xC0, 0xC0⟩]

/-- Order 1: the primary and control-flow instructions. -/
def opcodeRowsPrimaryControl : List OpcodeRow :=
  [⟨.halt, 0x01, 0x3F⟩, ⟨.loadImmediate, 0x02, 0x3F⟩, ⟨.push, 0x05, 0x3F⟩, ⟨.pop, 0x06, 0x3F⟩, ⟨.print, 0x07, 0x3F⟩,
   ⟨.call, 0x10, 0x3F⟩, ⟨.ret, 0x11, 0x3F⟩, ⟨.jmp, 0x14, 0x3F⟩, ⟨.jeq, 0x15, 0x3F⟩, ⟨.jne, 0x16, 0x3F⟩]

/-- Order 1: the ALU instructions. -/
def opcodeRowsAlu : List OpcodeRow :=
  [⟨.add, 0x20, 0x2F⟩, ⟨.sub, 0x21, 0x2F⟩, ⟨.mul, 0x22, 0x2F⟩, ⟨.div, 0x23, 0x2F⟩, ⟨.mod, 0x24, 0x2F⟩,
   ⟨.inc, 0x25, 0x2F⟩, ⟨.dec, 0x26, 0x2F⟩, ⟨.cmp, 0x27, 0x2F⟩, ⟨.and, 0x28, 0x2F⟩, ⟨.not, 0x29, 0x2F⟩,
   ⟨.or, 0x2A, 0x2F⟩, ⟨.xor, 0x2B, 0x2F⟩, ⟨.shl, 0x2C, 0x2F⟩, ⟨.shr, 0x2D, 0x2F⟩, ⟨.tst, 0x2F, 0x2F⟩]

/-- Order 2: the three rows that catch unlisted codes. -/
def opcodeRowsCatch : List OpcodeRow :=
  [⟨.illegalAlu, 0x2E, 0x2F⟩, ⟨.illegalControl, 0x10, 0x30⟩, ⟨.illegalPrimary, 0x00, 0x30⟩]

/-- The 29 rows in ascending order. -/
def opcodeTable : List OpcodeRow :=
  opcodeRowsLength ++ opcodeRowsPrimaryControl ++ opcodeRowsAlu ++ opcodeRowsCatch

/-- Whether a row matches an opcode byte. -/
def OpcodeRow.matchesByte (r : OpcodeRow) (ir : Byte) : Bool := (ir &&& r.mask) == r.pattern

/-- The row of an opcode byte: the first that matches (30_encoding.md, opening paragraph). -/
def tableOperation (ir : Byte) : Option Operation :=
  (opcodeTable.find? (OpcodeRow.matchesByte · ir)).map OpcodeRow.operation

/-- The row an instruction is of. -/
def Instr.operation : Instr → Operation
  | .halt _ => .halt
  | .loadImmediate _ _ _ => .loadImmediate
  | .push _ _ => .push
  | .pop _ _ => .pop
  | .print _ _ => .print
  | .add _ _ _ _ => .add
  | .sub _ _ _ _ => .sub
  | .mul _ _ _ _ => .mul
  | .div _ _ _ _ => .div
  | .mod _ _ _ _ => .mod
  | .inc _ _ _ => .inc
  | .dec _ _ _ => .dec
  | .cmp _ _ _ _ => .cmp
  | .and _ _ _ _ => .and
  | .not _ _ _ => .not
  | .or _ _ _ _ => .or
  | .xor _ _ _ _ => .xor
  | .shl _ _ _ _ => .shl
  | .shr _ _ _ _ => .shr
  | .tst _ _ _ _ => .tst
  | .call _ _ => .call
  | .ret _ => .ret
  | .jmp _ _ => .jmp
  | .jeq _ _ => .jeq
  | .jne _ _ => .jne
  | .illegalCount _ => .illegalCount
  | .illegalAlu _ _ => .illegalAlu
  | .illegalControl _ _ => .illegalControl
  | .illegalPrimary _ _ => .illegalPrimary

/-! ## The host's view of the decoder -/

/-- Byte `k` of a word whose first byte is its least significant, the bits from `nbits` up being zero. -/
def tableByte (nbits w k : Nat) : Byte := BitVec.ofNat 8 (w % 2 ^ nbits / 256 ^ k)

/-- The instruction the decoder reads from the table word `w` of `nbits` bits, the first byte at the lowest address
(20_memory.md R32). -/
def decodeTableWord (nbits w : Nat) : Option Instr :=
  match decode [tableByte nbits w 0, tableByte nbits w 1, tableByte nbits w 2] with
  | .ok i => some i
  | .error _ => none

end Sys2Proof
end

