-- ==== Sys2Proof/Machine/State.lean ====
section
/-! DEFINITION. The whole state of the machine (spec 10_state.md, opening record: "Nothing else is state"), its reset
value, and the ways a step can stop. -/

namespace Sys2Proof.Machine

/-- Memory as (address, byte) pairs; an unlisted address reads as `Config.memReset` (20_memory.md R31; assumption 9). -/
abbrev Memory := List Host.Cell

/-- The canonical form of a memory: addresses strictly rising, each inside the address space (R30), and no entry equal
to what an unlisted address reads as. -/
def Memory.wf : Memory → Bool
  | [] => true
  | [c] => decide (c.1 < Config.memSize) && c.2 != Config.memReset
  | c :: d :: rest => decide (c.1 < d.1) && decide (c.1 < Config.memSize) && c.2 != Config.memReset && Memory.wf (d :: rest)

/-- The run state (10_state.md R21). -/
inductive RunState
  | running
  | halted
  | error
  deriving DecidableEq, Repr

/-- The five error kinds (60_exceptions.md R110). -/
inductive ErrorKind
  | unsupportedInstruction
  | unsupportedALUOperation
  | unsupportedControlOp
  | divisionByZero
  | addressOutOfRange
  deriving DecidableEq, Repr

/-- The error record (10_state.md R22). `detail` is none, an operand byte, or 256 (60_exceptions.md R110 to R115). -/
structure ErrorRecord where
  kind : ErrorKind
  opcode : Byte
  pc : Byte
  detail : Option Nat
  deriving DecidableEq, Repr

/-- An output event (10_state.md R23). -/
inductive Event
  | print (n : Byte)
  | tst (pass : Bool)
  deriving DecidableEq, Repr

/-- The state record (10_state.md). `out` is oldest first. -/
structure State where
  x : Vector Byte 8
  pc : Byte
  fl : BitVec 3
  mem : Memory
  run : RunState
  err : Option ErrorRecord
  out : List Event
  deriving DecidableEq, Repr

/-- Why the machine takes no step. The spec's five errors are no faults here: entering one is a next state (R116). -/
inductive Fault
  /-- Raised by `step` when `run` is HALTED: there is no step (10_state.md R21, 70_reset_and_hazards.md R142). Safe. -/
  | halted
  /-- Raised by `step` when `run` is ERROR: there is no step (R21, R142, 60_exceptions.md R118). Safe. -/
  | inError
  deriving DecidableEq, Repr

/-- Why an instruction has no meaning in the model. -/
inductive Refusal
  /-- Raised only by an arm of `exec` whose instruction is not modelled yet; no arm raises it. Safe. -/
  | notModelled (mnemonic : String)
  deriving DecidableEq, Repr

/-- What a step answers. -/
abbrev Result := Host.Outcome State Fault Refusal

/-- The reset values (10_state.md R26) with the flags as the parameter `FL_RESET` (R19, D11; assumption 2). `run` is
RUNNING: the state after reset and the load of an empty program (R134, R135; assumption 4). -/
def State.resetWith (flReset : BitVec 3) : State where
  x := #v[0x00, 0x00, 0x00, 0x00, 0x00, 0x00, 0x00, Config.spReset]
  pc := Config.pcReset
  fl := flReset
  mem := []
  run := .running
  err := none
  out := []

/-- The machine right after reset (10_state.md R26, 70_reset_and_hazards.md R131). -/
def State.reset : State := State.resetWith Config.flReset

end Sys2Proof.Machine
end

