-- ==== Sys2Proof/Machine/Ops.lean ====
section
/-! DEFINITION. The named operations over registers, memory, output and the program counter, and the one way an error is
entered. Every meaning is written over these. -/

namespace Sys2Proof.Machine

/-! ## Registers (10_state.md R10 to R13) -/

/-- `x[i]`: reading changes nothing (R11). -/
def State.reg (s : State) (i : Fin 8) : Byte := s.x[i]

/-- `x[i] <- v`. No register is hardwired (R13). -/
def State.setReg (s : State) (i : Fin 8) (v : Byte) : State := { s with x := s.x.set i v }

/-- What a register keeps of an exact result: `n mod 256` with a non-negative remainder (R11). -/
def narrow (n : Int) : Byte := BitVec.ofInt 8 n

/-- The stack pointer's value (R12). -/
def State.sp (s : State) : Byte := s.reg Config.spIndex

/-! ## Memory (20_memory.md R30 to R36) -/

/-- The byte at an address; an unlisted one reads as at reset (R31). -/
def Memory.read : Memory → Nat → Byte
  | [], _ => Config.memReset
  | c :: rest, a => if c.1 = a then c.2 else Memory.read rest a

/-- The memory without an entry for an address. -/
def Memory.erase (m : Memory) (a : Nat) : Memory := m.filter (fun c => c.1 != a)

/-- A memory that lists no entry for `a`, with one put in at its place in the order. -/
def Memory.insert : Memory → Nat → Byte → Memory
  | [], a, v => [(a, v)]
  | c :: rest, a, v => if a < c.1 then (a, v) :: c :: rest else c :: Memory.insert rest a v

/-- Write one byte (R31), keeping the canonical form. -/
def Memory.write (m : Memory) (a : Nat) (v : Byte) : Memory :=
  if v = Config.memReset then m.erase a else (m.erase a).insert a v

/-- `MemRead(addr, 1)`: an address is 8 bits, so every address exists (R30, R35). -/
def State.read (s : State) (addr : Byte) : Byte := s.mem.read addr.toNat

/-- `MemWrite(addr, 1, v)`. -/
def State.write (s : State) (addr v : Byte) : State := { s with mem := s.mem.write addr.toNat v }

/-! ## Stack pointer arithmetic: modulo 256, no bounds (R35, R43) -/

/-- `x[7] <- x[7] - 1`. -/
def State.decSp (s : State) : State := s.setReg Config.spIndex (narrow ((s.sp.toNat : Int) - 1))

/-- `x[7] <- x[7] + 1`. -/
def State.incSp (s : State) : State := s.setReg Config.spIndex (narrow ((s.sp.toNat : Int) + 1))

/-! ## Output, flags, program counter, run state -/

/-- `emit`: append one event (10_state.md R23). -/
def State.emit (s : State) (e : Event) : State := { s with out := s.out ++ [e] }

/-- `fl <- f` (R17, R18). -/
def State.setFlags (s : State) (f : BitVec 3) : State := { s with fl := f }

/-- `pc <- target` (R14). -/
def State.setPc (s : State) (target : Byte) : State := { s with pc := target }

/-- `run <- HALTED` (41_primary.md R70). -/
def State.halt (s : State) : State := { s with run := .halted }

/-! ## Errors: entry, and the only way out -/

/-- Error entry (60_exceptions.md R116): `run` and `err` are written and nothing else; control goes nowhere. It is
applied to the state as it was when the step began, so nothing of the instruction is committed (R69). -/
def raise (kind : ErrorKind) (ir : Byte) (detail : Option Nat) (s : State) : Result :=
  .next { s with run := .error, err := some { kind := kind, opcode := ir, pc := s.pc, detail := detail } }

/-- There is no return from an error (60_exceptions.md R118): a reset by the host is the only way out of ERROR and of
HALTED (70_reset_and_hazards.md R130). It puts every piece of state, memory included, to its reset value. -/
def hostReset (_ : State) : State := State.reset

/-! ## Sequential advance -/

/-- `next = pc + len`, before any reduction (00_scope.md R6, 40_fetch_decode_dispatch.md R63). -/
def State.nextPc (s : State) (v : OperandCount) : Nat := s.pc.toNat + v.length

/-- Use `next` as a byte; above 255 it raises `AddressOutOfRange(detail = 256)` (R68). -/
def withNext (ir : Byte) (v : OperandCount) (s : State) (k : Byte → Result) : Result :=
  if s.nextPc v ≤ 255 then k (BitVec.ofNat 8 (s.nextPc v)) else raise .addressOutOfRange ir (some 256) s

/-- End an instruction that began at `s` and whose other writes give `done` with `pc <- next` (R68, R69). -/
def advance (ir : Byte) (v : OperandCount) (s done : State) : Result :=
  withNext ir v s fun next => .next (done.setPc next)

end Sys2Proof.Machine
end

