-- ==== Sys2Proof/Machine/Flags.lean ====
section
/-! DEFINITION. The flags register: its three bits and the one computation that writes it (spec 10_state.md R17, R18;
42_alu.md R88). -/

namespace Sys2Proof.Machine

/-- `fl.E = fl[0]` (R17). -/
def State.flagE (s : State) : Bool := s.fl.getLsbD 0

/-- `fl.G = fl[1]` (R17). No instruction reads it (R18). -/
def State.flagG (s : State) : Bool := s.fl.getLsbD 1

/-- `fl.L = fl[2]` (R17). No instruction reads it (R18). -/
def State.flagL (s : State) : Bool := s.fl.getLsbD 2

/-- The flags after comparing the first value with the second, both unsigned (R88). -/
def compareFlags (va vb : Byte) : BitVec 3 :=
  if va.toNat = vb.toNat then 0b001 else if vb.toNat < va.toNat then 0b010 else 0b100

end Sys2Proof.Machine
end

