-- ==== Sys2Proof/Machine/Operands.lean ====
section
/-! DEFINITION. The operand forms (spec 30_encoding.md R48) and the check of a register operand byte
(40_fetch_decode_dispatch.md R67). Form N uses no operand; the immediate of form RI is used as it stands (R49), so RI is
`withReg` for its register. -/

namespace Sys2Proof.Machine

/-- A register operand byte names a register when it is 0 to 7; it is not masked (R59). -/
def regIndex? (operand : Byte) : Option (Fin 8) :=
  if h : operand.toNat < 8 then some ⟨operand.toNat, h⟩ else none

/-- Forms R and RI: use operand byte `a` as a register index, or raise (R67). -/
def withReg (ir a : Byte) (s : State) (k : Fin 8 → Result) : Result :=
  match regIndex? a with
  | some ra => k ra
  | none => raise .addressOutOfRange ir (some a.toNat) s

/-- Form RR: `a` is checked first, then `b` (R67). -/
def withTwoRegs (ir a b : Byte) (s : State) (k : Fin 8 → Fin 8 → Result) : Result :=
  withReg ir a s fun ra => withReg ir b s fun rb => k ra rb

end Sys2Proof.Machine
end

