-- ==== Sys2Proof/Machine/Alu.lean ====
section
/-! DEFINITION. The ALU block and the meanings of the fifteen ALU instructions (spec 42_alu.md). Values are read as
unsigned numbers, results are exact, and the register keeps the low 8 bits (R80). -/

namespace Sys2Proof.Machine

/-- What the ALU answers (R99). -/
inductive AluAnswer
  | result (value : Byte)
  | flags (f : BitVec 3)
  | observe (pass : Bool)
  | divisionByZero
  | unsupported
  deriving DecidableEq, Repr

/-! ## The operations, from the values of the first and the second register -/

/-- R81. -/
def aluAdd (va vb : Byte) : AluAnswer := .result (narrow (va.toNat + vb.toNat))

/-- R82. -/
def aluSub (va vb : Byte) : AluAnswer := .result (narrow ((va.toNat : Int) - vb.toNat))

/-- R83. -/
def aluMul (va vb : Byte) : AluAnswer := .result (narrow (va.toNat * vb.toNat))

/-- R84: unsigned, rounded toward zero; the divisor is compared with 0 first (R114). -/
def aluDiv (va vb : Byte) : AluAnswer :=
  if vb.toNat = 0 then .divisionByZero else .result (narrow ((va.toNat / vb.toNat : Nat) : Int))

/-- R85. -/
def aluMod (va vb : Byte) : AluAnswer :=
  if vb.toNat = 0 then .divisionByZero else .result (narrow ((va.toNat % vb.toNat : Nat) : Int))

/-- R86. -/
def aluInc (va : Byte) : AluAnswer := .result (narrow ((va.toNat : Int) + 1))

/-- R87. -/
def aluDec (va : Byte) : AluAnswer := .result (narrow ((va.toNat : Int) - 1))

/-- R88. -/
def aluCmp (va vb : Byte) : AluAnswer := .flags (compareFlags va vb)

/-- R89. -/
def aluAnd (va vb : Byte) : AluAnswer := .result (va &&& vb)

/-- R90. -/
def aluNot (va : Byte) : AluAnswer := .result (va ^^^ 0xFF)

/-- R91. -/
def aluOr (va vb : Byte) : AluAnswer := .result (va ||| vb)

/-- R92. -/
def aluXor (va vb : Byte) : AluAnswer := .result (va ^^^ vb)

/-- R93: the amount is the whole value of the second register. -/
def aluShl (va vb : Byte) : AluAnswer := .result (narrow ((va.toNat * 2 ^ vb.toNat : Nat) : Int))

/-- R94: logical. -/
def aluShr (va vb : Byte) : AluAnswer := .result (narrow ((va.toNat / 2 ^ vb.toNat : Nat) : Int))

/-- R95: pass exactly when the two values are equal. -/
def aluTst (va vb : Byte) : AluAnswer := .observe (decide (va.toNat = vb.toNat))

/-- The ALU as a block: a pure function of the code and the two register values (R99). -/
def alu (code : BitVec 4) (va vb : Byte) : AluAnswer :=
  match code with
  | 0b0000#4 => aluAdd va vb
  | 0b0001#4 => aluSub va vb
  | 0b0010#4 => aluMul va vb
  | 0b0011#4 => aluDiv va vb
  | 0b0100#4 => aluMod va vb
  | 0b0101#4 => aluInc va
  | 0b0110#4 => aluDec va
  | 0b0111#4 => aluCmp va vb
  | 0b1000#4 => aluAnd va vb
  | 0b1001#4 => aluNot va
  | 0b1010#4 => aluOr va vb
  | 0b1011#4 => aluXor va vb
  | 0b1100#4 => aluShl va vb
  | 0b1101#4 => aluShr va vb
  | 0b1111#4 => aluTst va vb
  | _ => .unsupported

/-- The dispatcher turns the ALU's answer into the writes of the step (R99): a result goes to the first register. -/
def commitAlu (ir : Byte) (v : OperandCount) (ra : Fin 8) (s : State) : AluAnswer → Result
  | .result value => advance ir v s (s.setReg ra value)
  | .flags f => advance ir v s (s.setFlags f)
  | .observe pass => advance ir v s (s.emit (.tst pass))
  | .divisionByZero => raise .divisionByZero ir none s
  | .unsupported => raise .unsupportedALUOperation ir none s

/-- A two-register operation (form RR). -/
def aluTwo (op : Byte → Byte → AluAnswer) (ir : Byte) (v : OperandCount) (a b : Byte) (s : State) : Result :=
  withTwoRegs ir a b s fun ra rb => commitAlu ir v ra s (op (s.reg ra) (s.reg rb))

/-- A one-register operation (form R). -/
def aluOne (op : Byte → AluAnswer) (ir : Byte) (v : OperandCount) (a : Byte) (s : State) : Result :=
  withReg ir a s fun ra => commitAlu ir v ra s (op (s.reg ra))

/-! ## The meanings -/

/-- ADD (R81). -/
def execAdd (v : OperandCount) (c : Bool) (a b : Byte) (s : State) : Result :=
  aluTwo aluAdd (Instr.add v c a b).opcode v a b s

/-- SUB (R82). -/
def execSub (v : OperandCount) (c : Bool) (a b : Byte) (s : State) : Result :=
  aluTwo aluSub (Instr.sub v c a b).opcode v a b s

/-- MUL (R83). -/
def execMul (v : OperandCount) (c : Bool) (a b : Byte) (s : State) : Result :=
  aluTwo aluMul (Instr.mul v c a b).opcode v a b s

/-- DIV (R84). -/
def execDiv (v : OperandCount) (c : Bool) (a b : Byte) (s : State) : Result :=
  aluTwo aluDiv (Instr.div v c a b).opcode v a b s

/-- MOD (R85). -/
def execMod (v : OperandCount) (c : Bool) (a b : Byte) (s : State) : Result :=
  aluTwo aluMod (Instr.mod v c a b).opcode v a b s

/-- INC (R86). -/
def execInc (v : OperandCount) (c : Bool) (a : Byte) (s : State) : Result :=
  aluOne aluInc (Instr.inc v c a).opcode v a s

/-- DEC (R87). -/
def execDec (v : OperandCount) (c : Bool) (a : Byte) (s : State) : Result :=
  aluOne aluDec (Instr.dec v c a).opcode v a s

/-- CMP (R88). -/
def execCmp (v : OperandCount) (c : Bool) (a b : Byte) (s : State) : Result :=
  aluTwo aluCmp (Instr.cmp v c a b).opcode v a b s

/-- AND (R89). -/
def execAnd (v : OperandCount) (c : Bool) (a b : Byte) (s : State) : Result :=
  aluTwo aluAnd (Instr.and v c a b).opcode v a b s

/-- NOT (R90). -/
def execNot (v : OperandCount) (c : Bool) (a : Byte) (s : State) : Result :=
  aluOne aluNot (Instr.not v c a).opcode v a s

/-- OR (R91). -/
def execOr (v : OperandCount) (c : Bool) (a b : Byte) (s : State) : Result :=
  aluTwo aluOr (Instr.or v c a b).opcode v a b s

/-- XOR (R92). -/
def execXor (v : OperandCount) (c : Bool) (a b : Byte) (s : State) : Result :=
  aluTwo aluXor (Instr.xor v c a b).opcode v a b s

/-- SHL (R93). -/
def execShl (v : OperandCount) (c : Bool) (a b : Byte) (s : State) : Result :=
  aluTwo aluShl (Instr.shl v c a b).opcode v a b s

/-- SHR (R94). -/
def execShr (v : OperandCount) (c : Bool) (a b : Byte) (s : State) : Result :=
  aluTwo aluShr (Instr.shr v c a b).opcode v a b s

/-- TST (R95). -/
def execTst (v : OperandCount) (c : Bool) (a b : Byte) (s : State) : Result :=
  aluTwo aluTst (Instr.tst v c a b).opcode v a b s

end Sys2Proof.Machine
end

