-- ==== Sys2Proof/Machine/Control.lean ====
section
/-! DEFINITION. The meanings of the control-flow instructions (spec 43_control_flow.md). A target is the value of a
register and is not checked when the jump executes (R100). -/

namespace Sys2Proof.Machine

/-- CALL (R101): the return address must fit a byte; the target is read after the decrement. -/
def execCall (v : OperandCount) (a : Byte) (s : State) : Result :=
  let ir := (Instr.call v a).opcode
  withReg ir a s fun ra => withNext ir v s fun next =>
    let s₁ := s.decSp
    let s₂ := s₁.write s₁.sp next
    .next (s₂.setPc (s₂.reg ra))

/-- RET (R102): `next` is not used. -/
def execRet (_v : OperandCount) (s : State) : Result :=
  .next (s.setPc (s.read s.sp)).incSp

/-- JMP (R103). -/
def execJmp (v : OperandCount) (a : Byte) (s : State) : Result :=
  withReg (Instr.jmp v a).opcode a s fun ra => .next (s.setPc (s.reg ra))

/-- JEQ (R104): the operand byte is checked whether or not the jump is taken. -/
def execJeq (v : OperandCount) (a : Byte) (s : State) : Result :=
  let ir := (Instr.jeq v a).opcode
  withReg ir a s fun ra => if s.flagE then .next (s.setPc (s.reg ra)) else advance ir v s s

/-- JNE (R105). -/
def execJne (v : OperandCount) (a : Byte) (s : State) : Result :=
  let ir := (Instr.jne v a).opcode
  withReg ir a s fun ra => if s.flagE then advance ir v s s else .next (s.setPc (s.reg ra))

end Sys2Proof.Machine
end

