-- ==== Sys2Proof/Machine/Illegal.lean ====
section
/-! DEFINITION. The meanings of the four illegal rows of the opcode table: each raises its error, with no detail (spec
40_fetch_decode_dispatch.md R64, R66; 60_exceptions.md R111 to R113). -/

namespace Sys2Proof.Machine

/-- `v = 3` (R64, R111). -/
def execIllegalCount (low : BitVec 6) (s : State) : Result :=
  raise .unsupportedInstruction (Instr.illegalCount low).opcode none s

/-- ALU code 1110 (R66, R96, R112). -/
def execIllegalAlu (v : OperandCount) (c : Bool) (s : State) : Result :=
  raise .unsupportedALUOperation (Instr.illegalAlu v c).opcode none s

/-- An unlisted control-flow code (R66, R107, R113). -/
def execIllegalControl (v : OperandCount) (code : BitVec 4) (s : State) : Result :=
  raise .unsupportedControlOp (Instr.illegalControl v code).opcode none s

/-- An unlisted primary code (R66, R75, R111). -/
def execIllegalPrimary (v : OperandCount) (code : BitVec 4) (s : State) : Result :=
  raise .unsupportedInstruction (Instr.illegalPrimary v code).opcode none s

end Sys2Proof.Machine
end

