-- ==== Sys2Proof/Machine/Primary.lean ====
section
/-! DEFINITION. The meanings of the primary instructions (spec 41_primary.md). -/

namespace Sys2Proof.Machine

/-- HALT (R70): `pc` stays on the HALT byte, and the next-pc check does not apply. -/
def execHalt (_v : OperandCount) (s : State) : Result := .next s.halt

/-- LOAD-IMMEDIATE (R71): the immediate is used as it stands and never checked (R49, R67). -/
def execLoadImmediate (v : OperandCount) (a imm : Byte) (s : State) : Result :=
  let ir := (Instr.loadImmediate v a imm).opcode
  withReg ir a s fun ra => advance ir v s (s.setReg ra imm)

/-- PRINT (R72). -/
def execPrint (v : OperandCount) (a : Byte) (s : State) : Result :=
  let ir := (Instr.print v a).opcode
  withReg ir a s fun ra => advance ir v s (s.emit (.print (s.reg ra)))

/-- PUSH (R73): the register is read after the decrement, and the address is the new stack pointer. -/
def execPush (v : OperandCount) (a : Byte) (s : State) : Result :=
  let ir := (Instr.push v a).opcode
  withReg ir a s fun ra =>
    let s₁ := s.decSp
    advance ir v s (s₁.write s₁.sp (s₁.reg ra))

/-- POP (R74): the register is written first, then the stack pointer as it is now is incremented. -/
def execPop (v : OperandCount) (a : Byte) (s : State) : Result :=
  let ir := (Instr.pop v a).opcode
  withReg ir a s fun ra => advance ir v s (s.setReg ra (s.read s.sp)).incSp

end Sys2Proof.Machine
end

