-- ==== Sys2Proof/Machine/Dispatch.lean ====
section
/-! DEFINITION. One arm per row of the opcode table. -/

namespace Sys2Proof.Machine

-- The instruction's own effect or error (spec 40_fetch_decode_dispatch.md R60, steps 6 to 10).
def exec (i : Instr) (s : State) : Host.Outcome State Fault Refusal :=
  match i with
  -- Primary
  | .halt v => Sys2Proof.Machine.execHalt v s
  | .loadImmediate v a imm => Sys2Proof.Machine.execLoadImmediate v a imm s
  | .push v a => Sys2Proof.Machine.execPush v a s
  | .pop v a => Sys2Proof.Machine.execPop v a s
  | .print v a => Sys2Proof.Machine.execPrint v a s
  -- ALU
  | .add v c a b => Sys2Proof.Machine.execAdd v c a b s
  | .sub v c a b => Sys2Proof.Machine.execSub v c a b s
  | .mul v c a b => Sys2Proof.Machine.execMul v c a b s
  | .div v c a b => Sys2Proof.Machine.execDiv v c a b s
  | .mod v c a b => Sys2Proof.Machine.execMod v c a b s
  | .inc v c a => Sys2Proof.Machine.execInc v c a s
  | .dec v c a => Sys2Proof.Machine.execDec v c a s
  | .cmp v c a b => Sys2Proof.Machine.execCmp v c a b s
  | .and v c a b => Sys2Proof.Machine.execAnd v c a b s
  | .not v c a => Sys2Proof.Machine.execNot v c a s
  | .or v c a b => Sys2Proof.Machine.execOr v c a b s
  | .xor v c a b => Sys2Proof.Machine.execXor v c a b s
  | .shl v c a b => Sys2Proof.Machine.execShl v c a b s
  | .shr v c a b => Sys2Proof.Machine.execShr v c a b s
  | .tst v c a b => Sys2Proof.Machine.execTst v c a b s
  -- Control flow
  | .call v a => Sys2Proof.Machine.execCall v a s
  | .ret v => Sys2Proof.Machine.execRet v s
  | .jmp v a => Sys2Proof.Machine.execJmp v a s
  | .jeq v a => Sys2Proof.Machine.execJeq v a s
  | .jne v a => Sys2Proof.Machine.execJne v a s
  -- The illegal patterns
  | .illegalCount low => Sys2Proof.Machine.execIllegalCount low s
  | .illegalAlu v c => Sys2Proof.Machine.execIllegalAlu v c s
  | .illegalControl v code => Sys2Proof.Machine.execIllegalControl v code s
  | .illegalPrimary v code => Sys2Proof.Machine.execIllegalPrimary v code s

end Sys2Proof.Machine
end

