-- ==== Sys2Proof/Machine/Fetch.lean ====
section
/-! DEFINITION. Fetching an instruction (spec 40_fetch_decode_dispatch.md R61, R62), and placing one where the next fetch
reads it. -/

namespace Sys2Proof.Machine

/-- The fetch-range check: `pc > 253` (R62). -/
def State.fetchInRange (s : State) : Bool := decide (s.pc.toNat ≤ 253)

/-- Read the bytes at `pc`, `pc + 1` and `pc + 2`, always all three, and decode them (R61, R63). -/
def fetchInstr (s : State) : Instr :=
  decodeBytes (s.read s.pc) (s.read (s.pc + 1)) (s.read (s.pc + 2))

/-- What a step does whose fetch is out of range: nothing is executed, whatever the byte at `pc` is (R62, R115). -/
def raiseFetchRange (s : State) : Result := raise .addressOutOfRange (s.read s.pc) (some 256) s

/-- Three bytes stored from an address up. -/
def State.writeThree (s : State) (p b0 b1 b2 : Byte) : State :=
  ((s.write p b0).write (p + 1) b1).write (p + 2) b2

/-- The state in which a fetch takes place: `run` is RUNNING (and so `err` none, 10_state.md R22) and `pc` is at most 253;
a state that has all this is left as it is (assumption 7). -/
def State.readyToFetch (s : State) : State :=
  { s with
    run := .running
    err := match s.run with
      | .running => s.err
      | _ => none
    pc := if s.fetchInRange then s.pc else Config.pcReset }

/-- The table word's three bytes stored where the next fetch reads. -/
def placeFetchWord (s : State) (nbits w : Nat) : State :=
  let t := s.readyToFetch
  t.writeThree t.pc (tableByte nbits w 0) (tableByte nbits w 1) (tableByte nbits w 2)

end Sys2Proof.Machine
end

