-- ==== Sys2Proof/Machine/Step.lean ====
section
/-! DEFINITION. One step (spec 40_fetch_decode_dispatch.md R60). -/

namespace Sys2Proof.Machine

/-- A step exists only while `run` is RUNNING (R60, 10_state.md R21): the fetch-range check, the fetch, and the
instruction. In HALTED and in ERROR there is none (70_reset_and_hazards.md R142; assumption 5). -/
def step (s : State) : Host.Outcome State Fault Refusal :=
  match s.run with
  | .running => if s.fetchInRange then exec (fetchInstr s) s else raiseFetchRange s
  | .halted => .fault .halted
  | .error => .fault .inError

/-- `s` with the table word `w` stored where the next step fetches (assumption 7). -/
def State.withFetchWord (s : State) (nbits w : Nat) : State := placeFetchWord s nbits w

end Sys2Proof.Machine
end

