-- ==== Sys2Proof/Machine/Loader.lean ====
section
/-! DEFINITION. The load port and the program file (spec 70_reset_and_hazards.md R133 to R135, 30_encoding.md R58). The
loader acts once, after reset and before the first step. -/

namespace Sys2Proof.Machine

/-- The program's bytes at ascending addresses; nothing but memory is touched (R133). -/
def Memory.loadFrom (m : Memory) (base : Nat) : List Byte → Memory
  | [] => m
  | b :: rest => (m.write base b).loadFrom (base + 1) rest

/-- The state the program starts in (R135), or none: a program of more than 256 bytes does not fit, the load fails and
no step exists (R134, D21). -/
def load (program : List Byte) : Option State :=
  if program.length ≤ Config.memSize then
    some { State.reset with mem := State.reset.mem.loadFrom Config.loadBase program }
  else none

/-- What the loader makes of one line of the program file (R58, R134). -/
inductive LineReading
  | ignored
  | byte (b : Byte)
  | malformed
  deriving DecidableEq, Repr

/-- A binary character. -/
def bitOfChar : Char → Option Bool
  | '0' => some false
  | '1' => some true
  | _ => none

/-- The number of the first `n` characters, the first one the most significant; none if one of them is missing or not
binary. Characters after them are ignored (R58). -/
def readBits : Nat → Nat → List Char → Option Nat
  | 0, acc, _ => some acc
  | _ + 1, _, [] => none
  | n + 1, acc, c :: rest =>
    match bitOfChar c with
    | some bit => readBits n (2 * acc + bit.toNat) rest
    | none => none

/-- A line that begins with neither `0` nor `1` is a comment or blank and is ignored; one that does must have 8 binary
characters (R58, R134). -/
def readLine (line : List Char) : LineReading :=
  match line.head?.bind bitOfChar with
  | none => .ignored
  | some _ =>
    match readBits 8 0 line with
    | some n => .byte (BitVec.ofNat 8 n)
    | none => .malformed

/-- The instruction sequence of a program file given as its lines, in file order; none if a line is malformed. -/
def programOfLines : List (List Char) → Option (List Byte)
  | [] => some []
  | line :: rest =>
    match readLine line with
    | .ignored => programOfLines rest
    | .byte b => (programOfLines rest).map (b :: ·)
    | .malformed => none

/-- Load a program file (R58, R133 to R135). -/
def loadFile (lines : List (List Char)) : Option State := (programOfLines lines).bind load

end Sys2Proof.Machine
end

