-- ==== Sys2Proof/Machine/Output.lean ====
section
/-! DEFINITION. The output log as text (spec 10_state.md R23): one line per event. -/

namespace Sys2Proof.Machine

/-- A decimal digit. -/
def digitChar (d : Nat) : Char := Char.ofNat ('0'.toNat + d)

/-- The decimal numeral of a byte, unsigned, without leading zeros (R23). -/
def decimalText (n : Byte) : List Char :=
  if n.toNat < 10 then [digitChar n.toNat]
  else if n.toNat < 100 then [digitChar (n.toNat / 10), digitChar (n.toNat % 10)]
  else [digitChar (n.toNat / 100), digitChar (n.toNat / 10 % 10), digitChar (n.toNat % 10)]

/-- The line an event puts out (R23; texts D10, assumption 3; line end assumption 12). -/
def Event.line : Event → List Char
  | .print n => decimalText n ++ [Config.lineEnd]
  | .tst true => Config.tstPassText ++ [Config.lineEnd]
  | .tst false => Config.tstFailText ++ [Config.lineEnd]

/-- The text a run has put out so far, in program order. -/
def State.outputText (s : State) : List Char := s.out.flatMap Event.line

end Sys2Proof.Machine
end

