-- ==== Sys2Proof/Safety.lean ====
section
/-! DEFINITION. What holds of every state the machine can reach, in the terms the statements use (spec 10_state.md R29
and the rules it gathers), and how a run can end. -/

namespace Sys2Proof.Machine

/-- `fl` is 0 before the first CMP and one of 1, 2, 4 from then on (10_state.md R19, R29). -/
abbrev State.FlagsLegal (s : State) : Prop := s.fl = 0b000 ∨ s.fl = 0b001 ∨ s.fl = 0b010 ∨ s.fl = 0b100

/-- Which details an error kind carries: 256 or a byte above 7 for `AddressOutOfRange`, else none (60_exceptions.md
R110, R111 to R115). -/
abbrev ErrorRecord.DetailLegal (e : ErrorRecord) : Prop :=
  if e.kind = .addressOutOfRange then ∃ d ∈ e.detail, 7 < d ∧ d ≤ 256 else e.detail = none

/-- In ERROR, `err` names the byte at `pc`, which still addresses the faulting instruction; in the other run states
there is no record (10_state.md R22, 60_exceptions.md R116). -/
abbrev State.ErrorLegal (s : State) : Prop :=
  match s.err with
  | none => s.run ≠ .error
  | some e => s.run = .error ∧ e.pc = s.pc ∧ e.opcode = s.read s.pc ∧ e.DetailLegal

/-- In HALTED, `pc` addresses a HALT instruction that a fetch can reach (41_primary.md R70). -/
abbrev State.HaltLegal (s : State) : Prop :=
  s.run = .halted → s.fetchInRange = true ∧ (fetchInstr s).operation = .halt

/-- The machine's invariant: memory in canonical form, and the three conditions above. -/
structure State.Inv (s : State) : Prop where
  memory : s.mem.wf = true
  flags : s.FlagsLegal
  error : s.ErrorLegal
  halt : s.HaltLegal

/-- A run has ended when no step is left (10_state.md R21). -/
abbrev State.Terminal (s : State) : Prop := s.run ≠ .running

/-- A run ended well when it reached HALTED (70_reset_and_hazards.md R136). -/
abbrev State.EndedWell (s : State) : Prop := s.run = .halted

end Sys2Proof.Machine
end

