-- ==== Sys2Proof/Certificates/Slice0/Obligations.lean ====
section
/-! DEFINITION. The statements about the machine. Each says which rule of the spec it formalises; where a rule marks a
clause as a decision of its own (D<n> of 92_eei_decisions.md) the docstring names it. -/

namespace Sys2Proof.Claims

open Sys2Proof Sys2Proof.Machine

/-! ## Shapes shared by the statements -/

/-- The outcome of a step that raises: `run` and `err` written, nothing else (60_exceptions.md R116). -/
def failed (s : State) (kind : ErrorKind) (ir : Byte) (detail : Option Nat) : Result :=
  .next { s with run := .error, err := some { kind := kind, opcode := ir, pc := s.pc, detail := detail } }

/-- `next = pc + len` with `len = v + 1` (00_scope.md R6). -/
def nextOf (s : State) (v : OperandCount) : Nat := s.pc.toNat + (v.bits.toNat + 1)

/-- The opcode byte `v v 1 c code` of the ALU class (30_encoding.md R46, R47). -/
def aluOpcode (c : Bool) (code : BitVec 4) (v : OperandCount) : Byte := v.bits ++ 1#1 ++ BitVec.ofBool c ++ code

/-- The opcode byte `v v 0 1 code` of the control-flow class (30_encoding.md R46, R47). -/
def controlOpcode (code : BitVec 4) (v : OperandCount) : Byte := v.bits ++ 0b01#2 ++ code

/-- The opcode byte `v v 0 0 code` of the primary class (30_encoding.md R46, R47). -/
def primaryOpcode (code : BitVec 4) (v : OperandCount) : Byte := v.bits ++ 0b00#2 ++ code

/-- A two-register instruction (form RR) that ends in `pc <- next`, its rule whole: each of its opcode bytes decodes to it;
on valid registers, with `next` in range, it has `effect` and advances; otherwise it raises, `a` checked before `b` and both
before `next` (40_fetch_decode_dispatch.md R67, D5; R68, D3). -/
def TwoRegisterRule (opcode : OperandCount → Byte) (mk : OperandCount → Byte → Byte → Instr)
    (effect : State → Fin 8 → Fin 8 → State) : Prop :=
  (∀ v a b, decodeBytes (opcode v) a b = mk v a b) ∧
  (∀ v a b (ra rb : Fin 8) s, a.toNat = ra.val → b.toNat = rb.val → nextOf s v ≤ 255 →
    exec (mk v a b) s = .next { effect s ra rb with pc := BitVec.ofNat 8 (nextOf s v) }) ∧
  (∀ v a b s, 7 < a.toNat → exec (mk v a b) s = failed s .addressOutOfRange (opcode v) (some a.toNat)) ∧
  (∀ v a b s, a.toNat ≤ 7 → 7 < b.toNat →
    exec (mk v a b) s = failed s .addressOutOfRange (opcode v) (some b.toNat)) ∧
  (∀ v a b s, a.toNat ≤ 7 → b.toNat ≤ 7 → 255 < nextOf s v →
    exec (mk v a b) s = failed s .addressOutOfRange (opcode v) (some 256))

/-- A one-register instruction (form R, or RI with `b` its immediate) that ends in `pc <- next`, its rule whole, as above. -/
def OneRegisterRule (opcode : OperandCount → Byte) (mk : OperandCount → Byte → Byte → Instr)
    (effect : State → Fin 8 → Byte → State) : Prop :=
  (∀ v a b, decodeBytes (opcode v) a b = mk v a b) ∧
  (∀ v a b (ra : Fin 8) s, a.toNat = ra.val → nextOf s v ≤ 255 →
    exec (mk v a b) s = .next { effect s ra b with pc := BitVec.ofNat 8 (nextOf s v) }) ∧
  (∀ v a b s, 7 < a.toNat → exec (mk v a b) s = failed s .addressOutOfRange (opcode v) (some a.toNat)) ∧
  (∀ v a b s, a.toNat ≤ 7 → 255 < nextOf s v →
    exec (mk v a b) s = failed s .addressOutOfRange (opcode v) (some 256))

/-- An ALU instruction with a result: `x[ra] <- value` reduced modulo 256. -/
def result (value : Nat → Nat → Nat) (s : State) (ra rb : Fin 8) : State :=
  { s with x := s.x.set ra (BitVec.ofNat 8 (value s.x[ra].toNat s.x[rb].toNat)) }

/-- DIV and MOD, the rule whole: as a two-register instruction when the divisor is not 0, and `DivisionByZero` when it is,
before `next` is looked at (42_alu.md R84, R85; 60_exceptions.md R117, D16). -/
def DivisionRule (opcode : OperandCount → Byte) (mk : OperandCount → Byte → Byte → Instr)
    (value : Nat → Nat → Nat) : Prop :=
  (∀ v a b, decodeBytes (opcode v) a b = mk v a b) ∧
  (∀ v a b (ra rb : Fin 8) s, a.toNat = ra.val → b.toNat = rb.val → s.x[rb].toNat ≠ 0 → nextOf s v ≤ 255 →
    exec (mk v a b) s = .next { result value s ra rb with pc := BitVec.ofNat 8 (nextOf s v) }) ∧
  (∀ v a b (ra rb : Fin 8) s, a.toNat = ra.val → b.toNat = rb.val → s.x[rb].toNat = 0 →
    exec (mk v a b) s = failed s .divisionByZero (opcode v) none) ∧
  (∀ v a b s, 7 < a.toNat → exec (mk v a b) s = failed s .addressOutOfRange (opcode v) (some a.toNat)) ∧
  (∀ v a b s, a.toNat ≤ 7 → 7 < b.toNat →
    exec (mk v a b) s = failed s .addressOutOfRange (opcode v) (some b.toNat)) ∧
  (∀ v a b (rb : Fin 8) s, a.toNat ≤ 7 → b.toNat = rb.val → s.x[rb].toNat ≠ 0 → 255 < nextOf s v →
    exec (mk v a b) s = failed s .addressOutOfRange (opcode v) (some 256))

/-- JEQ and JNE, the rule whole: `pc <- x[a]` when the equal bit is `taken`, else `pc <- next`; the operand byte is checked
either way, `next` only when it is used (43_control_flow.md R104, R105). -/
def BranchRule (opcode : OperandCount → Byte) (mk : OperandCount → Byte → Instr) (taken : Bool) : Prop :=
  (∀ v a b, decodeBytes (opcode v) a b = mk v a) ∧
  (∀ v a (ra : Fin 8) s, a.toNat = ra.val → s.fl.getLsbD 0 = taken →
    exec (mk v a) s = .next { s with pc := s.x[ra] }) ∧
  (∀ v a s, a.toNat ≤ 7 → s.fl.getLsbD 0 ≠ taken → nextOf s v ≤ 255 →
    exec (mk v a) s = .next { s with pc := BitVec.ofNat 8 (nextOf s v) }) ∧
  (∀ v a s, 7 < a.toNat → exec (mk v a) s = failed s .addressOutOfRange (opcode v) (some a.toNat)) ∧
  (∀ v a s, a.toNat ≤ 7 → s.fl.getLsbD 0 ≠ taken → 255 < nextOf s v →
    exec (mk v a) s = failed s .addressOutOfRange (opcode v) (some 256))

/-- What a frame says of `run` and `err`: both unchanged, or the instruction raised. -/
def KeepsRunOrRaises (s t : State) : Prop := t.run = s.run ∧ t.err = s.err ∨ t.run = .error

/-- The first error of a step in the order of 60_exceptions.md R117 (D16), written over the bits of the fetched bytes; none
if the step raises nothing. -/
def firstError (s : State) : Option (ErrorKind × Option Nat) :=
  let ir := s.read s.pc
  let a := (s.read (s.pc + 1)).toNat
  let b := (s.read (s.pc + 2)).toNat
  let v := ir.toNat / 64
  let code := ir.toNat % 16
  let alu := ir.getLsbD 5
  let control := !ir.getLsbD 5 && ir.getLsbD 4
  let primary := !ir.getLsbD 5 && !ir.getLsbD 4
  let usesA := !(primary && code == 1) && !(control && code == 1)
  let usesB := alu && !([5, 6, 9].contains code)
  let usesNext := alu || primary && code != 1 || control && code == 0 ||
    control && code == 5 && !s.fl.getLsbD 0 || control && code == 6 && s.fl.getLsbD 0
  if 253 < s.pc.toNat then some (.addressOutOfRange, some 256)
  else if v = 3 then some (.unsupportedInstruction, none)
  else if alu && code == 14 then some (.unsupportedALUOperation, none)
  else if control && !([0, 1, 4, 5, 6].contains code) then some (.unsupportedControlOp, none)
  else if primary && !([1, 2, 5, 6, 7].contains code) then some (.unsupportedInstruction, none)
  else if usesA && 7 < a then some (.addressOutOfRange, some a)
  else if usesB && 7 < b then some (.addressOutOfRange, some b)
  else if alu && [3, 4].contains code && s.reg (Fin.ofNat 8 b) == 0 then some (.divisionByZero, none)
  else if usesNext && 255 < s.pc.toNat + (v + 1) then some (.addressOutOfRange, some 256)
  else none

/-- The operations of the ALU table and its illegal row (30_encoding.md R52, R54). -/
def aluOperations : List Operation :=
  [.add, .sub, .mul, .div, .mod, .inc, .dec, .cmp, .and, .not, .or, .xor, .shl, .shr, .tst, .illegalAlu]

/-- The operations of the control-flow table and its illegal row. -/
def controlOperations : List Operation := [.call, .ret, .jmp, .jeq, .jne, .illegalControl]

/-- The operations of the primary table and its illegal row. -/
def primaryOperations : List Operation := [.halt, .loadImmediate, .push, .pop, .print, .illegalPrimary]

/-- The 8 characters of a byte, bit 7 first (30_encoding.md R58). -/
def byteChars (b : Byte) : List Char :=
  [7, 6, 5, 4, 3, 2, 1, 0].map fun k => if b.getLsbD k then '1' else '0'

end Sys2Proof.Claims

open Sys2Proof Sys2Proof.Machine Sys2Proof.Claims

/-! ## Encoding and decoding -/

/-- Every well-formed instruction, with every operand at every value, is what its own words decode to, whatever bytes follow
(30_encoding.md R45, R46, R48, R52). The zero bytes that fill up a long alias are the model's (assumption 11). -/
def Obligations.DecodingAnEncodedInstructionGivesItBack : Prop :=
  ∀ (i : Instr) (rest : List Byte), i.wf = true → 2 ≤ rest.length → decode (encode i ++ rest) = .ok i

/-- Whatever the three bytes, the decoded instruction is well formed, its opcode byte is the byte decoded, and its operand
bytes are the first of the two fetched: no bit that is used is dropped or moved (30_encoding.md R46, R48, R55). -/
def Obligations.DecodedInstructionKeepsItsBytes : Prop :=
  ∀ ir a b : Byte, (decodeBytes ir a b).wf = true ∧ (decodeBytes ir a b).opcode = ir ∧
    (decodeBytes ir a b).operandBytes <+: [a, b]

/-- Decoding by field agrees with the opcode table read row by row, first match first (30_encoding.md, opening paragraph). -/
def Obligations.FieldDecodingAgreesWithTheOpcodeTable : Prop :=
  ∀ ir a b : Byte, tableOperation ir = some (decodeBytes ir a b).operation

/-- 30_encoding.md R47 and 40_fetch_decode_dispatch.md R65: the class is ALU if bit 5 is set whatever bit 4 is, control flow if
only bit 4 is, primary if neither is; and the operation does not depend on the operand count, nor on bit 4 of an ALU byte. -/
def Obligations.ClassSelectionFollowsThePrecedence : Prop :=
  ∀ ir a b : Byte, ir.extractLsb' 6 2 ≠ 3#2 →
    (ir.getLsbD 5 = true → (decodeBytes ir a b).operation ∈ aluOperations) ∧
    (ir.getLsbD 5 = false → ir.getLsbD 4 = true → (decodeBytes ir a b).operation ∈ controlOperations) ∧
    (ir.getLsbD 5 = false → ir.getLsbD 4 = false → (decodeBytes ir a b).operation ∈ primaryOperations) ∧
    (ir.getLsbD 5 = true → (decodeBytes (ir ^^^ 0x10) a b).operation = (decodeBytes ir a b).operation) ∧
    (∀ ir' a' b' : Byte, ir'.extractLsb' 6 2 ≠ 3#2 → ir'.extractLsb' 0 6 = ir.extractLsb' 0 6 →
      (decodeBytes ir' a' b').operation = (decodeBytes ir a b).operation)

/-- Words written out from 30_encoding.md R50 and R51: one or two of each class, an alias of each kind, an illegal byte of
each kind. -/
def Obligations.WrittenOutWordsDecode : Prop :=
  decodeBytes 0b10000010 0 5 = .loadImmediate .two 0 5 ∧ decodeBytes 0b00000001 9 9 = .halt .zero ∧
  decodeBytes 0b10100000 0 1 = .add .two false 0 1 ∧ decodeBytes 0b10110000 0 1 = .add .two true 0 1 ∧
  decodeBytes 0b01101001 3 9 = .not .one false 3 ∧ decodeBytes 0b01010100 2 9 = .jmp .one 2 ∧
  decodeBytes 0b10010000 1 0 = .call .two 1 ∧ decodeBytes 0b11000001 0 0 = .illegalCount 0b000001 ∧
  decodeBytes 0b10101110 0 0 = .illegalAlu .two false ∧ decodeBytes 0b01010111 0 0 = .illegalControl .one 0b0111 ∧
  decodeBytes 0b00000000 0 0 = .illegalPrimary .zero 0b0000

/-- 60_exceptions.md R111 to R113, 40_fetch_decode_dispatch.md R64 and R66: `v = 3` (D6) and an unlisted primary code raise
`UnsupportedInstruction`, ALU code 1110 `UnsupportedALUOperation`, an unlisted control-flow code `UnsupportedControlOp` (the
class's own kind: D27). Each records the byte, the pc and no detail and changes nothing else (R110, R116; D17). That the
illegal rows are constructors of `Instr` is the model's (assumption 11). -/
def Obligations.IllegalOpcodesRaiseTheirErrors : Prop :=
  (∀ low a b s, decodeBytes (0b11#2 ++ low : BitVec 8) a b = .illegalCount low ∧
    exec (.illegalCount low) s = failed s .unsupportedInstruction (0b11#2 ++ low : BitVec 8) none) ∧
  (∀ v c a b s, decodeBytes (aluOpcode c 0b1110 v) a b = .illegalAlu v c ∧
    exec (.illegalAlu v c) s = failed s .unsupportedALUOperation (aluOpcode c 0b1110 v) none) ∧
  (∀ v code a b s, code ∉ [0b0000#4, 0b0001#4, 0b0100#4, 0b0101#4, 0b0110#4] →
    decodeBytes (controlOpcode code v) a b = .illegalControl v code ∧
    exec (.illegalControl v code) s = failed s .unsupportedControlOp (controlOpcode code v) none) ∧
  (∀ v code a b s, code ∉ [0b0001#4, 0b0010#4, 0b0101#4, 0b0110#4, 0b0111#4] →
    decodeBytes (primaryOpcode code v) a b = .illegalPrimary v code ∧
    exec (.illegalPrimary v code) s = failed s .unsupportedInstruction (primaryOpcode code v) none)

/-! ## The step -/

/-- A running machine whose three bytes at `pc` decode to `i` takes the step `exec i`; the step adds nothing around it
(40_fetch_decode_dispatch.md R60, R61). -/
def Obligations.StepRunsTheDecodedInstruction : Prop :=
  ∀ (s : State) (i : Instr), s.run = .running → s.pc.toNat ≤ 253 →
    decode [s.read s.pc, s.read (s.pc + 1), s.read (s.pc + 2)] = .ok i → step s = exec i s

/-- 40_fetch_decode_dispatch.md R62 (D4): with `pc > 253` the step raises, whatever the byte at `pc` is. -/
def Obligations.FetchBeyondMemoryRaises : Prop :=
  ∀ s : State, s.run = .running → 253 < s.pc.toNat → step s = failed s .addressOutOfRange (s.read s.pc) (some 256)

/-- 70_reset_and_hazards.md R142 (10_state.md R21, D24): there is no step in HALTED or in ERROR. That the model answers the two
faults is its own choice, no rule of the spec (assumption 5, DEDUCED). -/
def Obligations.NoStepAfterTheEnd : Prop :=
  ∀ s : State, (s.run = .halted → step s = .fault .halted) ∧ (s.run = .error → step s = .fault .inError)

/-- A running machine always takes a step to a next state: no instruction stops the model, and nothing but the end of the
run does (70_reset_and_hazards.md R140). -/
def Obligations.RunningMachineAlwaysSteps : Prop :=
  ∀ s : State, s.run = .running → ∃ t, step s = .next t

/-- The state the host places a word in runs exactly the instruction its decoder reads from that word. The placing is the
model's convention (assumption 7). -/
def Obligations.PlacedWordIsTheNextInstruction : Prop :=
  ∀ (s : State) (nbits w : Nat), ∃ i, decodeTableWord nbits w = some i ∧
    step (s.withFetchWord nbits w) = exec i (s.withFetchWord nbits w)

/-! ## The rules of the primary instructions -/

/-- 41_primary.md R70 (`pc` unchanged: D12). -/
def Obligations.HaltStopsTheMachine : Prop :=
  (∀ v a b, decodeBytes (primaryOpcode 0b0001 v) a b = .halt v) ∧
  (∀ v s, exec (.halt v) s = .next { s with run := .halted })

/-- 41_primary.md R71 (operand order: D13). -/
def Obligations.LoadImmediateSetsARegister : Prop :=
  OneRegisterRule (primaryOpcode 0b0010) .loadImmediate fun s ra imm => { s with x := s.x.set ra imm }

/-- 41_primary.md R72. -/
def Obligations.PrintAppendsTheValue : Prop :=
  OneRegisterRule (primaryOpcode 0b0111) (fun v a _ => .print v a) fun s ra _ =>
    { s with out := s.out ++ [.print s.x[ra]] }

/-- 41_primary.md R73 (wrap of the stack pointer: D15): decrement, then write the register as it is then. -/
def Obligations.PushStoresBelowTheStack : Prop :=
  OneRegisterRule (primaryOpcode 0b0101) (fun v a _ => .push v a) fun s ra _ =>
    { s with
      x := s.x.set 7 (s.x[7] - 1)
      mem := s.mem.write (s.x[7] - 1).toNat (s.x.set 7 (s.x[7] - 1))[ra] }

/-- 41_primary.md R74 (wrap of the stack pointer: D15): write the register, then increment register 7 as it is then. -/
def Obligations.PopLoadsTheTopOfStack : Prop :=
  OneRegisterRule (primaryOpcode 0b0110) (fun v a _ => .pop v a) fun s ra _ =>
    { s with x := (s.x.set ra (s.read s.x[7])).set 7 ((s.x.set ra (s.read s.x[7]))[7] + 1) }

/-! ## The rules of the ALU instructions -/

/-- 42_alu.md R81 to R83: the exact sum, difference, product modulo 256 (D1). -/
def Obligations.AddSubMulWriteTheResultModulo256 : Prop :=
  (∀ c, TwoRegisterRule (aluOpcode c 0b0000) (fun v a b => .add v c a b) (result fun x y => x + y)) ∧
  (∀ c, TwoRegisterRule (aluOpcode c 0b0001) (fun v a b => .sub v c a b)
    (result fun x y => if y ≤ x then x - y else x + 256 - y)) ∧
  (∀ c, TwoRegisterRule (aluOpcode c 0b0010) (fun v a b => .mul v c a b) (result fun x y => x * y))

/-- 42_alu.md R84 and R85: the unsigned quotient rounded toward zero (D8) and the remainder, and `DivisionByZero`. -/
def Obligations.DivAndModDivideOrRaise : Prop :=
  (∀ c, DivisionRule (aluOpcode c 0b0011) (fun v a b => .div v c a b) fun x y => x / y) ∧
  (∀ c, DivisionRule (aluOpcode c 0b0100) (fun v a b => .mod v c a b) fun x y => x % y)

/-- 42_alu.md R86, R87 and R90: one more, one less, every bit inverted. -/
def Obligations.IncDecNotUpdateOneRegister : Prop :=
  (∀ c, OneRegisterRule (aluOpcode c 0b0101) (fun v a _ => .inc v c a) fun s ra _ =>
    { s with x := s.x.set ra (BitVec.ofNat 8 (s.x[ra].toNat + 1)) }) ∧
  (∀ c, OneRegisterRule (aluOpcode c 0b0110) (fun v a _ => .dec v c a) fun s ra _ =>
    { s with x := s.x.set ra (BitVec.ofNat 8 (s.x[ra].toNat + 255)) }) ∧
  (∀ c, OneRegisterRule (aluOpcode c 0b1001) (fun v a _ => .not v c a) fun s ra _ =>
    { s with x := s.x.set ra (BitVec.ofNat 8 (255 - s.x[ra].toNat)) })

/-- 42_alu.md R89, R91 and R92: bit by bit. -/
def Obligations.AndOrXorWorkBitByBit : Prop :=
  (∀ c, TwoRegisterRule (aluOpcode c 0b1000) (fun v a b => .and v c a b) fun s ra rb =>
    { s with x := s.x.set ra (BitVec.ofFnLE fun k : Fin 8 => s.x[ra].getLsbD k && s.x[rb].getLsbD k) }) ∧
  (∀ c, TwoRegisterRule (aluOpcode c 0b1010) (fun v a b => .or v c a b) fun s ra rb =>
    { s with x := s.x.set ra (BitVec.ofFnLE fun k : Fin 8 => s.x[ra].getLsbD k || s.x[rb].getLsbD k) }) ∧
  (∀ c, TwoRegisterRule (aluOpcode c 0b1011) (fun v a b => .xor v c a b) fun s ra rb =>
    { s with x := s.x.set ra (BitVec.ofFnLE fun k : Fin 8 => s.x[ra].getLsbD k != s.x[rb].getLsbD k) })

/-- 42_alu.md R93 and R94 (the amount is not masked, the right shift is logical: D14): 0 for an amount of 8 or more. -/
def Obligations.ShiftsUseTheWholeAmount : Prop :=
  (∀ c, TwoRegisterRule (aluOpcode c 0b1100) (fun v a b => .shl v c a b)
    (result fun x y => if 8 ≤ y then 0 else x * 2 ^ y)) ∧
  (∀ c, TwoRegisterRule (aluOpcode c 0b1101) (fun v a b => .shr v c a b)
    (result fun x y => if 8 ≤ y then 0 else x / 2 ^ y))

/-- 42_alu.md R88 (direction and unsigned comparison: D9): all three flags are written, no register changes. -/
def Obligations.CmpSetsExactlyOneFlag : Prop :=
  ∀ c, TwoRegisterRule (aluOpcode c 0b0111) (fun v a b => .cmp v c a b) fun s ra rb =>
    { s with fl := if s.x[ra] = s.x[rb] then 0b001 else if s.x[rb] < s.x[ra] then 0b010 else 0b100 }

/-- 42_alu.md R95 (pass means equality: D10): one event, no register, memory byte or flag changes. -/
def Obligations.TstAppendsAnObservation : Prop :=
  ∀ c, TwoRegisterRule (aluOpcode c 0b1111) (fun v a b => .tst v c a b) fun s ra rb =>
    { s with out := s.out ++ [.tst (s.x[ra] == s.x[rb])] }

/-- 42_alu.md R99 (D22): an ALU byte does what the block answers for its code and the two register values, and nothing else of
the instruction plays a part; the one-register operations do not look at `b`. -/
def Obligations.AluBlockDecidesEveryAluInstruction : Prop :=
  ∀ (v : OperandCount) (c : Bool) (code : BitVec 4) (a b : Byte) (ra rb : Fin 8) (s : State),
    a.toNat = ra.val → b.toNat = rb.val → nextOf s v ≤ 255 →
    exec (decodeBytes (aluOpcode c code v) a b) s =
      match alu code s.x[ra] s.x[rb] with
      | .result r => .next { s with x := s.x.set ra r, pc := BitVec.ofNat 8 (nextOf s v) }
      | .flags f => .next { s with fl := f, pc := BitVec.ofNat 8 (nextOf s v) }
      | .observe p => .next { s with out := s.out ++ [.tst p], pc := BitVec.ofNat 8 (nextOf s v) }
      | .divisionByZero => failed s .divisionByZero (aluOpcode c code v) none
      | .unsupported => failed s .unsupportedALUOperation (aluOpcode c code v) none

/-! ## The rules of the control-flow instructions -/

/-- 43_control_flow.md R101 (stack address: D18; wrap: D15): the return address is stored below the stack, and the target
is read after the decrement. -/
def Obligations.CallStoresTheReturnAddress : Prop :=
  (∀ v a b, decodeBytes (controlOpcode 0b0000 v) a b = .call v a) ∧
  (∀ v a (ra : Fin 8) s, a.toNat = ra.val → nextOf s v ≤ 255 →
    exec (.call v a) s = .next { s with
      x := s.x.set 7 (s.x[7] - 1)
      mem := s.mem.write (s.x[7] - 1).toNat (BitVec.ofNat 8 (nextOf s v))
      pc := (s.x.set 7 (s.x[7] - 1))[ra] }) ∧
  (∀ v a s, 7 < a.toNat → exec (.call v a) s = failed s .addressOutOfRange (controlOpcode 0b0000 v) (some a.toNat)) ∧
  (∀ v a s, a.toNat ≤ 7 → 255 < nextOf s v →
    exec (.call v a) s = failed s .addressOutOfRange (controlOpcode 0b0000 v) (some 256))

/-- 43_control_flow.md R102: in every state; `next` plays no part. -/
def Obligations.RetPopsTheReturnAddress : Prop :=
  (∀ v a b, decodeBytes (controlOpcode 0b0001 v) a b = .ret v) ∧
  (∀ v s, exec (.ret v) s = .next { s with pc := s.read s.x[7], x := s.x.set 7 (s.x[7] + 1) })

/-- 43_control_flow.md R103. -/
def Obligations.JmpGoesToTheRegister : Prop :=
  (∀ v a b, decodeBytes (controlOpcode 0b0100 v) a b = .jmp v a) ∧
  (∀ v a (ra : Fin 8) s, a.toNat = ra.val → exec (.jmp v a) s = .next { s with pc := s.x[ra] }) ∧
  (∀ v a s, 7 < a.toNat → exec (.jmp v a) s = failed s .addressOutOfRange (controlOpcode 0b0100 v) (some a.toNat))

/-- 43_control_flow.md R104 and R105. -/
def Obligations.ConditionalJumpsFollowTheEqualBit : Prop :=
  BranchRule (controlOpcode 0b0101) .jeq true ∧ BranchRule (controlOpcode 0b0110) .jne false

/-! ## Frames -/

/-- The instructions that write one register: nothing but that register, `pc` and (on an error) `run` and `err` changes
(10_state.md R13, R18; 20_memory.md R42). -/
def Obligations.RegisterInstructionsChangeOnlyTheirRegister : Prop :=
  ∀ (v : OperandCount) (c : Bool) (a b : Byte) (s t : State),
    ∀ i ∈ [Instr.loadImmediate v a b, .add v c a b, .sub v c a b, .mul v c a b, .div v c a b, .mod v c a b, .inc v c a,
      .dec v c a, .and v c a b, .not v c a, .or v c a b, .xor v c a b, .shl v c a b, .shr v c a b],
    exec i s = .next t →
      (∀ r : Fin 8, r.val ≠ a.toNat → t.reg r = s.reg r) ∧ t.fl = s.fl ∧ (∀ addr, t.read addr = s.read addr) ∧
      t.out = s.out ∧ KeepsRunOrRaises s t

/-- The instructions that write neither a register nor memory: only `pc`, the flags for CMP, one event for PRINT and TST,
and `run` and `err` for HALT and on an error (10_state.md R13, R18; 20_memory.md R42). -/
def Obligations.OtherInstructionsChangeNoRegisterOrMemory : Prop :=
  ∀ (v : OperandCount) (c : Bool) (a b : Byte) (low : BitVec 6) (code : BitVec 4) (s t : State),
    ∀ i ∈ [Instr.halt v, .print v a, .cmp v c a b, .tst v c a b, .jmp v a, .jeq v a, .jne v a, .illegalCount low,
      .illegalAlu v c, .illegalControl v code, .illegalPrimary v code],
    exec i s = .next t →
      (∀ r : Fin 8, t.reg r = s.reg r) ∧ (∀ addr, t.read addr = s.read addr) ∧
      (i.operation ≠ .cmp → t.fl = s.fl) ∧ (i.operation ≠ .print → i.operation ≠ .tst → t.out = s.out) ∧
      (KeepsRunOrRaises s t ∨ i.operation = .halt ∧ t.run = .halted ∧ t.err = s.err)

/-- PUSH and CALL: of the registers only the stack pointer changes, of memory only the byte at the decremented stack
pointer (10_state.md R13; 20_memory.md R42, R43). -/
def Obligations.PushAndCallChangeOneByteAndTheStackPointer : Prop :=
  ∀ (v : OperandCount) (a : Byte) (s t : State), ∀ i ∈ [Instr.push v a, .call v a], exec i s = .next t →
    (∀ r : Fin 8, r ≠ 7 → t.reg r = s.reg r) ∧ (∀ addr, addr ≠ s.decSp.sp → t.read addr = s.read addr) ∧
    t.fl = s.fl ∧ t.out = s.out ∧ KeepsRunOrRaises s t

/-- POP and RET: of the registers only the stack pointer and POP's destination change, and no byte of memory does
(10_state.md R13; 20_memory.md R42). -/
def Obligations.PopAndRetChangeNoMemory : Prop :=
  ∀ (v : OperandCount) (a : Byte) (s t : State), ∀ i ∈ [Instr.pop v a, .ret v], exec i s = .next t →
    (∀ r : Fin 8, r ≠ 7 → (i.operation = .pop → r.val ≠ a.toNat) → t.reg r = s.reg r) ∧
    (∀ addr, t.read addr = s.read addr) ∧ t.fl = s.fl ∧ t.out = s.out ∧ KeepsRunOrRaises s t

/-! ## The whole machine -/

/-- 10_state.md R18: only CMP writes the flags, and it writes all of them, whatever they were; only JEQ and JNE read them, and
only the equal bit. Said by changing the flags before an instruction: the outcome is the same, the flags it did not write
keeping their changed value. -/
def Obligations.OnlyCmpWritesAndOnlyBranchesReadFlags : Prop :=
  ∀ (i : Instr) (s t : State) (f : BitVec 3), s.run = .running → exec i s = .next t →
    (i.operation ≠ .cmp → t.fl = s.fl) ∧
    ((i.operation ≠ .jeq ∧ i.operation ≠ .jne) ∨ f.getLsbD 0 = s.fl.getLsbD 0 →
      exec i { s with fl := f } = .next { t with fl := if i.operation = .cmp ∧ t.run ≠ .error then t.fl else f })

/-- 20_memory.md R30 and R42: but for the fetch, an instruction other than PUSH, POP, CALL and RET neither reads nor writes
memory, and POP and RET read only the byte at the stack pointer and write none. Said by putting another memory in. -/
def Obligations.OnlyStackInstructionsTouchMemory : Prop :=
  ∀ (i : Instr) (s t : State) (m : Memory), exec i s = .next t →
    i.operation ∉ [.push, .call] →
    (i.operation ∈ [.pop, .ret] → m.read s.sp.toNat = s.read s.sp) →
    exec i { s with mem := m } = .next { t with mem := m }

/-- 10_state.md R23: the log is only ever appended to, by at most one event a step, and only by PRINT and TST. -/
def Obligations.OutputIsOnlyAppendedTo : Prop :=
  ∀ s t : State, step s = .next t →
    t.out = s.out ∨ ((fetchInstr s).operation = .print ∧ ∃ n, t.out = s.out ++ [.print n]) ∨
      ((fetchInstr s).operation = .tst ∧ ∃ p, t.out = s.out ++ [.tst p])

/-- 60_exceptions.md R116 (D17; 40_fetch_decode_dispatch.md R69, D23): a step that ends in ERROR has written `run` and
`err` and nothing else; the record names the byte at `pc`, and `pc` still addresses it. There is no step after (R118, R142);
the fault that says so is the model's (assumption 5, DEDUCED). -/
def Obligations.ErrorsCommitNothing : Prop :=
  ∀ s t : State, step s = .next t → t.run = .error →
    (∃ kind detail, t = { s with
      run := .error
      err := some { kind := kind, opcode := s.read s.pc, pc := s.pc, detail := detail } }) ∧
    step t = .fault .inError

/-- 60_exceptions.md R117 (D16) with R110: a step raises the first error whose condition holds, in the order of the checks,
with that error's detail; and if none holds it does not end in ERROR. -/
def Obligations.StepRaisesExactlyTheFirstError : Prop :=
  ∀ s : State, s.run = .running →
    match firstError s with
    | some (kind, detail) => step s = failed s kind (s.read s.pc) detail
    | none => ∃ t, step s = .next t ∧ t.run ≠ .error ∧ t.err = s.err

/-- 10_state.md R21: a step exists only in RUNNING, and it ends in HALTED exactly when the instruction fetched is a HALT. -/
def Obligations.OnlyHaltHalts : Prop :=
  ∀ s t : State, step s = .next t →
    s.run = .running ∧ (t.run = .halted ↔ s.pc.toNat ≤ 253 ∧ (fetchInstr s).operation = .halt)

/-- 10_state.md R15 and R16, 40_fetch_decode_dispatch.md R68: an instruction that is no HALT and transfers no control advances
`pc` by exactly its length, 1, 2 or 3, without wrapping around. -/
def Obligations.SequentialInstructionsAdvanceByTheirLength : Prop :=
  ∀ s t : State, step s = .next t → t.run ≠ .error →
    (fetchInstr s).operation ∉ [.halt, .call, .ret, .jmp, .jeq, .jne] →
    t.pc.toNat = s.pc.toNat + ((s.read s.pc).toNat / 64 + 1) ∧
      1 ≤ (s.read s.pc).toNat / 64 + 1 ∧ (s.read s.pc).toNat / 64 + 1 ≤ 3

/-- Every step keeps the machine's invariant, from every state that meets it: memory in canonical form, flags legal, the error
record consistent with the run state and naming the byte at `pc`, and HALTED only at a HALT (10_state.md R29, R22, R19). -/
def Obligations.EveryStepKeepsTheInvariant : Prop :=
  ∀ s t : State, s.Inv → step s = .next t → t.Inv

/-- The invariant holds after reset (10_state.md R26, R29). -/
def Obligations.ResetMeetsTheInvariant : Prop := State.reset.Inv

/-- Once a CMP has set it, `fl` has exactly one bit set for ever after (10_state.md R19, R29). -/
def Obligations.FlagsStayOneHotAfterACompare : Prop :=
  (∀ (v : OperandCount) (c : Bool) (a b : Byte) (s t : State), exec (.cmp v c a b) s = .next t → t.run ≠ .error →
    t.fl ∈ [0b001#3, 0b010#3, 0b100#3]) ∧
  (∀ s t : State, s.fl ∈ [0b001#3, 0b010#3, 0b100#3] → step s = .next t → t.fl ∈ [0b001#3, 0b010#3, 0b100#3])

/-! ## Pairs of instructions -/

/-- 41_primary.md R74: PUSH then POP on the same register, register 7 included, leaves every register as it was. -/
def Obligations.PushThenPopRestoresTheRegisters : Prop :=
  ∀ (v v' : OperandCount) (a : Byte) (s t u : State), exec (.push v a) s = .next t → t.run ≠ .error →
    exec (.pop v' a) t = .next u → u.run ≠ .error → u.x = s.x

/-- 43_control_flow.md R102: CALL followed by RET returns `pc` to the instruction immediately after the CALL, and the stack
pointer to its value before it. -/
def Obligations.CallThenRetReturnsAfterTheCall : Prop :=
  ∀ (v v' : OperandCount) (a : Byte) (s t : State), exec (.call v a) s = .next t → t.run ≠ .error →
    ∃ u, exec (.ret v') t = .next u ∧ u.pc.toNat = nextOf s v ∧ u.x = s.x

/-- 43_control_flow.md R105: after any CMP exactly one of JEQ and JNE jumps, JEQ if and only if the values were equal. -/
def Obligations.AfterCmpExactlyOneBranchJumps : Prop :=
  ∀ (v v' : OperandCount) (c : Bool) (a b target : Byte) (ra rb rt : Fin 8) (s t : State),
    a.toNat = ra.val → b.toNat = rb.val → target.toNat = rt.val →
    exec (.cmp v c a b) s = .next t → t.run ≠ .error → nextOf t v' ≤ 255 →
    (s.x[ra] = s.x[rb] →
      exec (.jeq v' target) t = .next { t with pc := s.x[rt] } ∧
      exec (.jne v' target) t = .next { t with pc := BitVec.ofNat 8 (nextOf t v') }) ∧
    (s.x[ra] ≠ s.x[rb] →
      exec (.jne v' target) t = .next { t with pc := s.x[rt] } ∧
      exec (.jeq v' target) t = .next { t with pc := BitVec.ofNat 8 (nextOf t v') })

/-- 41_primary.md R71: LOAD-IMMEDIATE followed by PRINT on the same register reproduces the immediate value exactly. -/
def Obligations.LoadImmediateThenPrintPrintsTheImmediate : Prop :=
  ∀ (v v' : OperandCount) (a imm : Byte) (s t u : State), exec (.loadImmediate v a imm) s = .next t → t.run ≠ .error →
    exec (.print v' a) t = .next u → u.run ≠ .error → u.out = s.out ++ [.print imm]

/-- 20_memory.md R40: a byte a PUSH stores is what the very next step fetches if it fetches that address. -/
def Obligations.PushedByteIsFetchedNext : Prop :=
  ∀ (v : OperandCount) (a : Byte) (ra : Fin 8) (s t : State), a.toNat = ra.val →
    exec (.push v a) s = .next t → t.run = .running → t.pc.toNat ≤ 253 → t.pc = s.x[7] - 1 →
    step t = exec (decodeBytes t.x[ra] (t.read (t.pc + 1)) (t.read (t.pc + 2))) t

/-! ## Memory, registers, reset, the outside -/

/-- 20_memory.md R31: an address that nothing has written reads 0; a read gives the byte last written there; a write changes
exactly one byte. -/
def Obligations.MemoryReadsTheByteLastWritten : Prop :=
  (∀ addr : Byte, State.reset.read addr = 0) ∧
  (∀ (s : State) (addr addr' v : Byte), (s.write addr v).read addr' = if addr' = addr then v else s.read addr')

/-- The model's representation of memory (assumption 9): a write keeps the canonical form, and in canonical form equal
contents are equal lists. -/
def Obligations.CanonicalMemoriesWithEqualBytesAreEqual : Prop :=
  (∀ (s : State) (addr v : Byte), s.mem.wf = true → (s.write addr v).mem.wf = true) ∧
  (∀ m m' : Memory, m.wf = true → m'.wf = true → (∀ addr : Byte, m.read addr.toNat = m'.read addr.toNat) → m = m')

/-- 10_state.md R11 (D1): a register write keeps the exact result modulo 256 and touches no other register. -/
def Obligations.RegisterWritesReduceModulo256 : Prop :=
  ∀ (s : State) (i j : Fin 8) (n : Int),
    (((s.setReg i (narrow n)).reg j).toNat : Int) = if j = i then n % 256 else ((s.reg j).toNat : Int)

/-- 10_state.md R26: the reset values. That `fl` is 0b000 is D11 (assumption 2), that register 7 is the stack pointer D2
(assumption 1), and that `run` is RUNNING stands for the load of an empty program (assumption 4). -/
def Obligations.ResetLeavesTheStatedValues : Prop :=
  (∀ r : Fin 8, State.reset.reg r = if r = 7 then 0xF4 else 0) ∧ State.reset.pc = 0 ∧ State.reset.fl = 0 ∧
  (∀ addr : Byte, State.reset.read addr = 0) ∧ State.reset.run = .running ∧ State.reset.err = none ∧ State.reset.out = []

/-- 70_reset_and_hazards.md R133 to R135 (D21): a program of at most 256 bytes is placed from address 0, all other bytes stay
0, nothing but memory is touched, and `run` is RUNNING; a longer one does not load. The canonical form of memory is the model's
representation (assumption 9), and that a failed load answers none its convention (assumption 10). -/
def Obligations.LoadPlacesTheProgramFromAddressZero : Prop :=
  ∀ program : List Byte,
    (program.length ≤ 256 → ∃ s, load program = some s ∧ s.mem.wf = true ∧ s = { State.reset with mem := s.mem } ∧
      ∀ addr : Byte, s.read addr = program.getD addr.toNat 0) ∧
    (256 < program.length → load program = none)

/-- 30_encoding.md R58, bit 7 first: a line reads as the byte of its first 8 binary characters; 70_reset_and_hazards.md R134
(D21): one that begins with `0` or `1` without having 8 of them is malformed. That every line that begins with neither is a
comment or blank, and ignored, is the model's reading (91_not_in_source.md N9; assumption 10, DEDUCED), and a line as a list
of characters its choice (assumption 10). -/
def Obligations.ProgramLinesReadAsBytes : Prop :=
  (∀ (b : Byte) (rest : List Char), readLine (byteChars b ++ rest) = .byte b) ∧
  (readLine [] = .ignored) ∧
  (∀ (ch : Char) (rest : List Char), ch ≠ '0' → ch ≠ '1' → readLine (ch :: rest) = .ignored) ∧
  (∀ (ch : Char) (rest : List Char), ch = '0' ∨ ch = '1' →
    (rest.length < 7 ∨ ∃ d ∈ rest.take 7, d ≠ '0' ∧ d ≠ '1') → readLine (ch :: rest) = .malformed)

/-- 10_state.md R23 (D19): PRINT's line is the decimal numeral without sign or leading zeros; the character that ends the line
is the model's (assumption 12). -/
def Obligations.PrintLineIsTheDecimalNumeral : Prop :=
  ∀ n : Byte, (Event.print n).line = Nat.toDigits 10 n.toNat ++ ['\n']

/-- 70_reset_and_hazards.md R130 (D25): a reset in any run state puts every piece of state to its reset value. That reset is a
function and no step is the model's reading (assumption 14). That the reset state steps again rests on its run state
(assumption 4, DEDUCED): it stands for a reset and the load of the empty program, whose first step raises (R134). -/
def Obligations.HostResetRestartsTheMachine : Prop :=
  ∀ s : State, hostReset s = State.reset ∧ ∃ t, step (hostReset s) = .next t
end

