-- ==== Sys2Proof/Laws/Decode.lean ====
section
/-! SUPPORT. The fields of an opcode byte made of fields. -/

namespace Sys2Proof

@[simp] theorem fieldCount_opcodeByte (v : BitVec 2) (A C : Bool) (code : BitVec 4) :
    fieldCount (opcodeByte v A C code) = v := by
  revert v A C code; decide

@[simp] theorem fieldAlu_opcodeByte (v : BitVec 2) (A C : Bool) (code : BitVec 4) :
    fieldAlu (opcodeByte v A C code) = A := by
  revert v A C code; decide

@[simp] theorem fieldControl_opcodeByte (v : BitVec 2) (A C : Bool) (code : BitVec 4) :
    fieldControl (opcodeByte v A C code) = C := by
  revert v A C code; decide

@[simp] theorem fieldCode_opcodeByte (v : BitVec 2) (A C : Bool) (code : BitVec 4) :
    fieldCode (opcodeByte v A C code) = code := by
  revert v A C code; decide

@[simp] theorem operandCount?_bits (v : OperandCount) : operandCount? v.bits = some v := by
  cases v <;> rfl

/-- A byte made of its own fields is itself. -/
theorem opcodeByte_fields (ir : Byte) :
    opcodeByte (fieldCount ir) (fieldAlu ir) (fieldControl ir) (fieldCode ir) = ir := by
  revert ir; decide

/-- The lengths: 1, 2 and 3 (30_encoding.md R45). -/
@[simp] theorem length_zero : OperandCount.zero.length = 1 := rfl
@[simp] theorem length_one : OperandCount.one.length = 2 := rfl
@[simp] theorem length_two : OperandCount.two.length = 3 := rfl

end Sys2Proof
end

