-- ==== Sys2Proof/Laws/State.lean ====
section
/-! SUPPORT. One lemma per field per update of the state, and per view of it (registers, bytes, flags), so that no later
proof unfolds a record update. -/

namespace Sys2Proof.Machine

variable (s : State)

/-! ## Fields -/

@[simp] theorem State.setReg_x (i : Fin 8) (v : Byte) : (s.setReg i v).x = s.x.set i v := rfl
@[simp] theorem State.setReg_pc (i : Fin 8) (v : Byte) : (s.setReg i v).pc = s.pc := rfl
@[simp] theorem State.setReg_fl (i : Fin 8) (v : Byte) : (s.setReg i v).fl = s.fl := rfl
@[simp] theorem State.setReg_mem (i : Fin 8) (v : Byte) : (s.setReg i v).mem = s.mem := rfl
@[simp] theorem State.setReg_run (i : Fin 8) (v : Byte) : (s.setReg i v).run = s.run := rfl
@[simp] theorem State.setReg_err (i : Fin 8) (v : Byte) : (s.setReg i v).err = s.err := rfl
@[simp] theorem State.setReg_out (i : Fin 8) (v : Byte) : (s.setReg i v).out = s.out := rfl

@[simp] theorem State.write_x (addr v : Byte) : (s.write addr v).x = s.x := rfl
@[simp] theorem State.write_pc (addr v : Byte) : (s.write addr v).pc = s.pc := rfl
@[simp] theorem State.write_fl (addr v : Byte) : (s.write addr v).fl = s.fl := rfl
@[simp] theorem State.write_mem (addr v : Byte) : (s.write addr v).mem = s.mem.write addr.toNat v := rfl
@[simp] theorem State.write_run (addr v : Byte) : (s.write addr v).run = s.run := rfl
@[simp] theorem State.write_err (addr v : Byte) : (s.write addr v).err = s.err := rfl
@[simp] theorem State.write_out (addr v : Byte) : (s.write addr v).out = s.out := rfl

@[simp] theorem State.emit_x (e : Event) : (s.emit e).x = s.x := rfl
@[simp] theorem State.emit_pc (e : Event) : (s.emit e).pc = s.pc := rfl
@[simp] theorem State.emit_fl (e : Event) : (s.emit e).fl = s.fl := rfl
@[simp] theorem State.emit_mem (e : Event) : (s.emit e).mem = s.mem := rfl
@[simp] theorem State.emit_run (e : Event) : (s.emit e).run = s.run := rfl
@[simp] theorem State.emit_err (e : Event) : (s.emit e).err = s.err := rfl
@[simp] theorem State.emit_out (e : Event) : (s.emit e).out = s.out ++ [e] := rfl

@[simp] theorem State.setFlags_x (f : BitVec 3) : (s.setFlags f).x = s.x := rfl
@[simp] theorem State.setFlags_pc (f : BitVec 3) : (s.setFlags f).pc = s.pc := rfl
@[simp] theorem State.setFlags_fl (f : BitVec 3) : (s.setFlags f).fl = f := rfl
@[simp] theorem State.setFlags_mem (f : BitVec 3) : (s.setFlags f).mem = s.mem := rfl
@[simp] theorem State.setFlags_run (f : BitVec 3) : (s.setFlags f).run = s.run := rfl
@[simp] theorem State.setFlags_err (f : BitVec 3) : (s.setFlags f).err = s.err := rfl
@[simp] theorem State.setFlags_out (f : BitVec 3) : (s.setFlags f).out = s.out := rfl

@[simp] theorem State.setPc_x (target : Byte) : (s.setPc target).x = s.x := rfl
@[simp] theorem State.setPc_pc (target : Byte) : (s.setPc target).pc = target := rfl
@[simp] theorem State.setPc_fl (target : Byte) : (s.setPc target).fl = s.fl := rfl
@[simp] theorem State.setPc_mem (target : Byte) : (s.setPc target).mem = s.mem := rfl
@[simp] theorem State.setPc_run (target : Byte) : (s.setPc target).run = s.run := rfl
@[simp] theorem State.setPc_err (target : Byte) : (s.setPc target).err = s.err := rfl
@[simp] theorem State.setPc_out (target : Byte) : (s.setPc target).out = s.out := rfl

@[simp] theorem State.halt_x : s.halt.x = s.x := rfl
@[simp] theorem State.halt_pc : s.halt.pc = s.pc := rfl
@[simp] theorem State.halt_fl : s.halt.fl = s.fl := rfl
@[simp] theorem State.halt_mem : s.halt.mem = s.mem := rfl
@[simp] theorem State.halt_run : s.halt.run = .halted := rfl
@[simp] theorem State.halt_err : s.halt.err = s.err := rfl
@[simp] theorem State.halt_out : s.halt.out = s.out := rfl

/-! ## Registers -/

@[simp] theorem State.reg_setReg_same (i : Fin 8) (v : Byte) : (s.setReg i v).reg i = v := by
  simp [State.reg, State.setReg]

@[simp] theorem State.reg_setReg_ne {i j : Fin 8} (h : j ≠ i) (v : Byte) : (s.setReg i v).reg j = s.reg j := by
  have h' : i.val ≠ j.val := fun e => h (Fin.ext e.symm)
  simp [State.reg, State.setReg, Vector.getElem_set_ne, h']

theorem State.reg_setReg (i j : Fin 8) (v : Byte) : (s.setReg i v).reg j = if j = i then v else s.reg j := by
  by_cases h : j = i
  · subst h; simp
  · simp [h]

@[simp] theorem State.reg_write (addr v : Byte) (i : Fin 8) : (s.write addr v).reg i = s.reg i := rfl
@[simp] theorem State.sp_write (addr v : Byte) : (s.write addr v).sp = s.sp := rfl
@[simp] theorem State.reg_emit (e : Event) (i : Fin 8) : (s.emit e).reg i = s.reg i := rfl
@[simp] theorem State.sp_emit (e : Event) : (s.emit e).sp = s.sp := rfl
@[simp] theorem State.reg_setFlags (f : BitVec 3) (i : Fin 8) : (s.setFlags f).reg i = s.reg i := rfl
@[simp] theorem State.sp_setFlags (f : BitVec 3) : (s.setFlags f).sp = s.sp := rfl
@[simp] theorem State.reg_setPc (target : Byte) (i : Fin 8) : (s.setPc target).reg i = s.reg i := rfl
@[simp] theorem State.sp_setPc (target : Byte) : (s.setPc target).sp = s.sp := rfl
@[simp] theorem State.reg_halt (i : Fin 8) : s.halt.reg i = s.reg i := rfl
@[simp] theorem State.sp_halt : s.halt.sp = s.sp := rfl

theorem State.sp_eq : s.sp = s.reg Config.spIndex := rfl

@[simp] theorem State.sp_setReg_sp (v : Byte) : (s.setReg Config.spIndex v).sp = v := by simp [State.sp]

/-! ## Bytes of memory -/

@[simp] theorem State.read_setReg (i : Fin 8) (v : Byte) (addr' : Byte) : (s.setReg i v).read addr' = s.read addr' := rfl
@[simp] theorem State.read_emit (e : Event) (addr' : Byte) : (s.emit e).read addr' = s.read addr' := rfl
@[simp] theorem State.read_setFlags (f : BitVec 3) (addr' : Byte) : (s.setFlags f).read addr' = s.read addr' := rfl
@[simp] theorem State.read_setPc (target : Byte) (addr' : Byte) : (s.setPc target).read addr' = s.read addr' := rfl
@[simp] theorem State.read_halt (addr' : Byte) : s.halt.read addr' = s.read addr' := rfl

/-! ## Flags -/

@[simp] theorem State.flagE_setReg (i : Fin 8) (v : Byte) : (s.setReg i v).flagE = s.flagE := rfl
@[simp] theorem State.flagE_write (addr v : Byte) : (s.write addr v).flagE = s.flagE := rfl
@[simp] theorem State.flagE_emit (e : Event) : (s.emit e).flagE = s.flagE := rfl
@[simp] theorem State.flagE_setPc (target : Byte) : (s.setPc target).flagE = s.flagE := rfl
@[simp] theorem State.flagE_halt : s.halt.flagE = s.flagE := rfl

/-! ## The stack pointer's two updates (20_memory.md R43) -/

@[simp] theorem State.decSp_pc : s.decSp.pc = s.pc := rfl
@[simp] theorem State.decSp_fl : s.decSp.fl = s.fl := rfl
@[simp] theorem State.decSp_mem : s.decSp.mem = s.mem := rfl
@[simp] theorem State.decSp_run : s.decSp.run = s.run := rfl
@[simp] theorem State.decSp_err : s.decSp.err = s.err := rfl
@[simp] theorem State.decSp_out : s.decSp.out = s.out := rfl
@[simp] theorem State.read_decSp (addr : Byte) : s.decSp.read addr = s.read addr := rfl
@[simp] theorem State.reg_decSp_ne {j : Fin 8} (h : j ≠ Config.spIndex) : s.decSp.reg j = s.reg j :=
  State.reg_setReg_ne s h _
@[simp] theorem State.incSp_pc : s.incSp.pc = s.pc := rfl
@[simp] theorem State.incSp_fl : s.incSp.fl = s.fl := rfl
@[simp] theorem State.incSp_mem : s.incSp.mem = s.mem := rfl
@[simp] theorem State.incSp_run : s.incSp.run = s.run := rfl
@[simp] theorem State.incSp_err : s.incSp.err = s.err := rfl
@[simp] theorem State.incSp_out : s.incSp.out = s.out := rfl
@[simp] theorem State.read_incSp (addr : Byte) : s.incSp.read addr = s.read addr := rfl
@[simp] theorem State.reg_incSp_ne {j : Fin 8} (h : j ≠ Config.spIndex) : s.incSp.reg j = s.reg j :=
  State.reg_setReg_ne s h _

/-- Reducing a difference of 1 modulo 256 is subtraction on bytes (10_state.md R11). -/
theorem narrow_sub_one (v : Byte) : narrow ((v.toNat : Int) - 1) = v - 1 := by
  revert v; decide

/-- Reducing a sum with 1 modulo 256 is addition on bytes (10_state.md R11). -/
theorem narrow_add_one (v : Byte) : narrow ((v.toNat : Int) + 1) = v + 1 := by
  revert v; decide

/-- An exact natural number is reduced modulo 256 (10_state.md R11). -/
theorem narrow_natCast (n : Nat) : narrow (n : Int) = BitVec.ofNat 8 n := by
  simp [narrow]

@[simp] theorem State.sp_decSp : s.decSp.sp = s.sp - 1 := by
  simp [State.decSp, narrow_sub_one]

@[simp] theorem State.sp_incSp : s.incSp.sp = s.sp + 1 := by
  simp [State.incSp, narrow_add_one]

/-- `next` is told by `pc` alone (00_scope.md R6). -/
theorem State.nextPc_eq (v : OperandCount) : s.nextPc v = s.pc.toNat + v.length := rfl

end Sys2Proof.Machine
end

