-- ==== Sys2Proof/Laws/Memory.lean ====
section
/-! SUPPORT. The laws of memory: what a read sees after a write, and that every operation keeps the canonical form. -/

namespace Sys2Proof.Machine

/-! ## Reading after erasing, inserting, writing -/

theorem Memory.read_erase_same (m : Memory) (a : Nat) : (m.erase a).read a = Config.memReset := by
  induction m with
  | nil => rfl
  | cons c rest ih =>
    by_cases h : c.1 = a
    · simpa [Memory.erase, h] using ih
    · simpa [Memory.erase, h, Memory.read] using ih

theorem Memory.read_erase_ne (m : Memory) {a a' : Nat} (h : a' ≠ a) : (m.erase a).read a' = m.read a' := by
  induction m with
  | nil => rfl
  | cons c rest ih =>
    by_cases hc : c.1 = a
    · have : c.1 ≠ a' := fun e => h (e.symm.trans hc)
      simpa [Memory.erase, hc, Memory.read, this, h.symm] using ih
    · simp only [Memory.erase] at ih
      simp [Memory.erase, hc, Memory.read, ih]

theorem Memory.read_insert_ne (m : Memory) {a a' : Nat} (h : a' ≠ a) (v : Byte) :
    (m.insert a v).read a' = m.read a' := by
  induction m with
  | nil => simp [Memory.insert, Memory.read, h.symm]
  | cons c rest ih =>
    simp only [Memory.insert]
    split
    · simp [Memory.read, h.symm]
    · simp [Memory.read, ih]

theorem Memory.read_insert_same (m : Memory) (a : Nat) (v : Byte) (h : ∀ c ∈ m, c.1 ≠ a) :
    (m.insert a v).read a = v := by
  induction m with
  | nil => simp [Memory.insert, Memory.read]
  | cons c rest ih =>
    simp only [Memory.insert]
    split
    · simp [Memory.read]
    · simp [Memory.read, h c (by simp), ih fun d hd => h d (by simp [hd])]

theorem Memory.ne_of_mem_erase {m : Memory} {a : Nat} : ∀ c ∈ m.erase a, c.1 ≠ a := by
  intro c hc
  simpa using (List.mem_filter.mp hc).2

/-- A read after a write to the same address gives the byte written (20_memory.md R31). -/
@[simp] theorem Memory.read_write_same (m : Memory) (a : Nat) (v : Byte) : (m.write a v).read a = v := by
  unfold Memory.write
  split
  · simp [Memory.read_erase_same, *]
  · exact Memory.read_insert_same _ _ _ Memory.ne_of_mem_erase

/-- A write leaves every other address alone (20_memory.md R31). -/
theorem Memory.read_write_ne (m : Memory) {a a' : Nat} (h : a' ≠ a) (v : Byte) : (m.write a v).read a' = m.read a' := by
  unfold Memory.write
  split
  · exact Memory.read_erase_ne m h
  · rw [Memory.read_insert_ne _ h, Memory.read_erase_ne m h]

@[simp] theorem State.read_write_same (s : State) (addr v : Byte) : (s.write addr v).read addr = v :=
  Memory.read_write_same _ _ _

@[simp] theorem State.read_write_ne (s : State) {addr addr' : Byte} (h : addr' ≠ addr) (v : Byte) :
    (s.write addr v).read addr' = s.read addr' :=
  Memory.read_write_ne _ (fun e => h (BitVec.eq_of_toNat_eq e)) _

/-! ## The canonical form -/

/-- The canonical form, as a property of the whole list. -/
theorem Memory.wf_iff (m : Memory) :
    m.wf = true ↔ m.Pairwise (fun c d => c.1 < d.1) ∧ ∀ c ∈ m, c.1 < Config.memSize ∧ c.2 ≠ Config.memReset := by
  induction m with
  | nil => simp [Memory.wf]
  | cons c rest ih =>
    cases rest with
    | nil => simp [Memory.wf]
    | cons d rest =>
      simp only [Memory.wf, Bool.and_eq_true, decide_eq_true_eq, bne_iff_ne, ih]
      constructor
      · rintro ⟨⟨⟨hlt, hs⟩, hv⟩, hp, hall⟩
        refine ⟨List.pairwise_cons.mpr ⟨?_, hp⟩, ?_⟩
        · intro e he
          rcases List.mem_cons.mp he with rfl | he'
          · exact hlt
          · exact hlt.trans ((List.pairwise_cons.mp hp).1 e he')
        · intro e he
          rcases List.mem_cons.mp he with rfl | he'
          · exact ⟨hs, hv⟩
          · exact hall e he'
      · rintro ⟨hp, hall⟩
        have hp' := List.pairwise_cons.mp hp
        exact ⟨⟨⟨hp'.1 d (by simp), (hall c (by simp)).1⟩, (hall c (by simp)).2⟩, hp'.2,
          fun e he => hall e (by simp [he])⟩

theorem Memory.wf_erase {m : Memory} (h : m.wf = true) (a : Nat) : (m.erase a).wf = true := by
  rw [Memory.wf_iff] at h ⊢
  exact ⟨h.1.filter _, fun c hc => h.2 c (List.mem_filter.mp hc).1⟩

theorem Memory.mem_insert {m : Memory} {a : Nat} {v : Byte} {c : Host.Cell} (h : c ∈ m.insert a v) :
    c = (a, v) ∨ c ∈ m := by
  induction m with
  | nil => simpa [Memory.insert] using h
  | cons d rest ih =>
    simp only [Memory.insert] at h
    split at h
    · simpa using h
    · rcases List.mem_cons.mp h with rfl | h'
      · simp
      · rcases ih h' with h'' | h'' <;> simp [h'']

theorem Memory.wf_insert {m : Memory} (h : m.wf = true) {a : Nat} {v : Byte} (ha : a < Config.memSize)
    (hv : v ≠ Config.memReset) (hm : ∀ c ∈ m, c.1 ≠ a) : (m.insert a v).wf = true := by
  rw [Memory.wf_iff] at h ⊢
  obtain ⟨hp, hall⟩ := h
  refine ⟨?_, fun c hc => ?_⟩
  · clear hall
    induction m with
    | nil => simp [Memory.insert]
    | cons d rest ih =>
      have hp' := List.pairwise_cons.mp hp
      simp only [Memory.insert]
      split
      · rename_i hlt
        refine List.pairwise_cons.mpr ⟨fun e he => ?_, hp⟩
        rcases List.mem_cons.mp he with rfl | he'
        · exact hlt
        · exact Nat.lt_trans hlt (hp'.1 e he')
      · rename_i hlt
        refine List.pairwise_cons.mpr ⟨fun e he => ?_, ih (fun c hc => hm c (by simp [hc])) hp'.2⟩
        rcases Memory.mem_insert he with rfl | he'
        · have := hm d (by simp)
          simp only at *
          omega
        · exact hp'.1 e he'
  · rcases Memory.mem_insert hc with rfl | hc'
    · exact ⟨ha, hv⟩
    · exact hall c hc'

/-- A write keeps the canonical form. -/
theorem Memory.wf_write {m : Memory} (h : m.wf = true) {a : Nat} (ha : a < Config.memSize) (v : Byte) :
    (m.write a v).wf = true := by
  unfold Memory.write
  split
  · exact Memory.wf_erase h a
  · exact Memory.wf_insert (Memory.wf_erase h a) ha ‹_› Memory.ne_of_mem_erase

theorem State.wf_write {s : State} (h : s.mem.wf = true) (addr v : Byte) : (s.write addr v).mem.wf = true :=
  Memory.wf_write h (by simpa [Config.memSize] using addr.isLt) v

/-- Loading keeps the canonical form, as long as the program fits. -/
theorem Memory.wf_loadFrom {m : Memory} (h : m.wf = true) (base : Nat) (program : List Byte)
    (hfit : base + program.length ≤ Config.memSize) : (m.loadFrom base program).wf = true := by
  induction program generalizing m base with
  | nil => exact h
  | cons b rest ih =>
    simp only [List.length_cons] at hfit
    exact ih (Memory.wf_write h (by omega) b) _ (by omega)

theorem reset_memory_wf : State.reset.mem.wf = true := rfl

end Sys2Proof.Machine
end

