-- ==== Sys2Proof/Laws/Ops.lean ====
section
/-! SUPPORT. One lemma per shared operation that says once everything it can do. -/

namespace Sys2Proof.Machine

/-- The state an error leaves (60_exceptions.md R116). -/
def errorState (kind : ErrorKind) (ir : Byte) (detail : Option Nat) (s : State) : State :=
  { s with run := .error, err := some { kind := kind, opcode := ir, pc := s.pc, detail := detail } }

theorem raise_eq (kind : ErrorKind) (ir : Byte) (detail : Option Nat) (s : State) :
    raise kind ir detail s = .next (errorState kind ir detail s) := rfl

/-! ## Register operands (40_fetch_decode_dispatch.md R67) -/

theorem regIndex?_eq_some {a : Byte} {ra : Fin 8} : regIndex? a = some ra ↔ a.toNat = ra.val := by
  unfold regIndex?
  split
  · simp [Fin.ext_iff]
  · simp only [reduceCtorEq, false_iff]
    omega

theorem regIndex?_eq_none {a : Byte} : regIndex? a = none ↔ 7 < a.toNat := by
  unfold regIndex?
  split <;> simp <;> omega

theorem withReg_of_index {ir a : Byte} {s : State} {k : Fin 8 → Result} {ra : Fin 8} (h : a.toNat = ra.val) :
    withReg ir a s k = k ra := by
  simp [withReg, regIndex?_eq_some.mpr h]

theorem withReg_of_large {ir a : Byte} {s : State} {k : Fin 8 → Result} (h : 7 < a.toNat) :
    withReg ir a s k = .next (errorState .addressOutOfRange ir (some a.toNat) s) := by
  simp [withReg, regIndex?_eq_none.mpr h, raise_eq]

/-- Everything `withReg` can do: run its continuation on the register named, or raise. -/
theorem withReg_cases (ir a : Byte) (s : State) (k : Fin 8 → Result) :
    (∃ ra : Fin 8, a.toNat = ra.val ∧ withReg ir a s k = k ra) ∨
      (7 < a.toNat ∧ withReg ir a s k = .next (errorState .addressOutOfRange ir (some a.toNat) s)) := by
  by_cases h : a.toNat < 8
  · exact .inl ⟨⟨a.toNat, h⟩, rfl, withReg_of_index rfl⟩
  · exact .inr ⟨by omega, withReg_of_large (by omega)⟩

/-! ## Sequential advance (40_fetch_decode_dispatch.md R68) -/

theorem withNext_of_le {ir : Byte} {v : OperandCount} {s : State} {k : Byte → Result}
    (h : s.pc.toNat + v.length ≤ 255) : withNext ir v s k = k (BitVec.ofNat 8 (s.pc.toNat + v.length)) := by
  simp [withNext, State.nextPc, h]

theorem withNext_of_gt {ir : Byte} {v : OperandCount} {s : State} {k : Byte → Result}
    (h : 255 < s.pc.toNat + v.length) :
    withNext ir v s k = .next (errorState .addressOutOfRange ir (some 256) s) := by
  simp [withNext, State.nextPc, Nat.not_le.mpr h, raise_eq]

theorem advance_of_le {ir : Byte} {v : OperandCount} {s done : State} (h : s.pc.toNat + v.length ≤ 255) :
    advance ir v s done = .next (done.setPc (BitVec.ofNat 8 (s.pc.toNat + v.length))) :=
  withNext_of_le h

theorem advance_of_gt {ir : Byte} {v : OperandCount} {s done : State} (h : 255 < s.pc.toNat + v.length) :
    advance ir v s done = .next (errorState .addressOutOfRange ir (some 256) s) :=
  withNext_of_gt h

/-- Everything `advance` can do: commit with `pc <- next`, or raise and commit nothing. -/
theorem advance_cases (ir : Byte) (v : OperandCount) (s done : State) :
    (s.pc.toNat + v.length ≤ 255 ∧
        advance ir v s done = .next (done.setPc (BitVec.ofNat 8 (s.pc.toNat + v.length)))) ∨
      (255 < s.pc.toNat + v.length ∧
        advance ir v s done = .next (errorState .addressOutOfRange ir (some 256) s)) := by
  by_cases h : s.pc.toNat + v.length ≤ 255
  · exact .inl ⟨h, advance_of_le h⟩
  · exact .inr ⟨by omega, advance_of_gt (by omega)⟩

theorem commitAlu_result (ir : Byte) (v : OperandCount) (ra : Fin 8) (s : State) (value : Byte) :
    commitAlu ir v ra s (.result value) = advance ir v s (s.setReg ra value) := rfl

theorem commitAlu_flags (ir : Byte) (v : OperandCount) (ra : Fin 8) (s : State) (f : BitVec 3) :
    commitAlu ir v ra s (.flags f) = advance ir v s (s.setFlags f) := rfl

theorem commitAlu_observe (ir : Byte) (v : OperandCount) (ra : Fin 8) (s : State) (pass : Bool) :
    commitAlu ir v ra s (.observe pass) = advance ir v s (s.emit (.tst pass)) := rfl

theorem commitAlu_divisionByZero (ir : Byte) (v : OperandCount) (ra : Fin 8) (s : State) :
    commitAlu ir v ra s .divisionByZero = .next (errorState .divisionByZero ir none s) := rfl

/-! ## Fetch -/

theorem fetchInRange_iff {s : State} : s.fetchInRange = true ↔ s.pc.toNat ≤ 253 := by
  simp [State.fetchInRange]

/-- A running machine that can fetch is left as it is. -/
theorem readyToFetch_of_running {s : State} (hr : s.run = .running) (hp : s.fetchInRange = true) :
    s.readyToFetch = s := by
  cases s
  simp_all [State.readyToFetch]

theorem readyToFetch_run (s : State) : s.readyToFetch.run = .running := rfl

theorem readyToFetch_fetchInRange (s : State) : s.readyToFetch.fetchInRange = true := by
  rw [fetchInRange_iff]
  by_cases h : s.fetchInRange = true
  · have hp : s.readyToFetch.pc = s.pc := by simp only [State.readyToFetch, h, if_true]
    rw [hp]
    exact fetchInRange_iff.mp h
  · have hp : s.readyToFetch.pc = Config.pcReset := by simp only [State.readyToFetch, h]; rfl
    rw [hp]
    decide

end Sys2Proof.Machine
end

