-- ==== Sys2Proof/Laws/PerInstr.lean ====
section
/-! SUPPORT. Per instruction: the opcode table's first matching row for an instruction's own opcode byte is the
instruction's row (30_encoding.md, opening paragraph; R52). -/

namespace Sys2Proof.Laws.OpcodeRow

open Sys2Proof

/-- The row of a well-formed instruction's opcode byte is its own row. -/
def Statement (i : Instr) : Prop := i.wf = true → tableOperation i.opcode = some i.operation

theorem halt (v : OperandCount) : Statement (.halt v) := by
  cases v <;> intro <;> change tableOperation (primaryByte _ 0b0001) = some .halt <;> decide

theorem loadImmediate (v : OperandCount) (a imm : Byte) : Statement (.loadImmediate v a imm) := by
  cases v <;> intro <;> change tableOperation (primaryByte _ 0b0010) = some .loadImmediate <;> decide

theorem push (v : OperandCount) (a : Byte) : Statement (.push v a) := by
  cases v <;> intro <;> change tableOperation (primaryByte _ 0b0101) = some .push <;> decide

theorem pop (v : OperandCount) (a : Byte) : Statement (.pop v a) := by
  cases v <;> intro <;> change tableOperation (primaryByte _ 0b0110) = some .pop <;> decide

theorem print (v : OperandCount) (a : Byte) : Statement (.print v a) := by
  cases v <;> intro <;> change tableOperation (primaryByte _ 0b0111) = some .print <;> decide

theorem add (v : OperandCount) (c : Bool) (a b : Byte) : Statement (.add v c a b) := by
  cases v <;> cases c <;> intro <;> change tableOperation (aluByte _ _ 0b0000) = some .add <;> decide

theorem sub (v : OperandCount) (c : Bool) (a b : Byte) : Statement (.sub v c a b) := by
  cases v <;> cases c <;> intro <;> change tableOperation (aluByte _ _ 0b0001) = some .sub <;> decide

theorem mul (v : OperandCount) (c : Bool) (a b : Byte) : Statement (.mul v c a b) := by
  cases v <;> cases c <;> intro <;> change tableOperation (aluByte _ _ 0b0010) = some .mul <;> decide

theorem div (v : OperandCount) (c : Bool) (a b : Byte) : Statement (.div v c a b) := by
  cases v <;> cases c <;> intro <;> change tableOperation (aluByte _ _ 0b0011) = some .div <;> decide

theorem mod (v : OperandCount) (c : Bool) (a b : Byte) : Statement (.mod v c a b) := by
  cases v <;> cases c <;> intro <;> change tableOperation (aluByte _ _ 0b0100) = some .mod <;> decide

theorem inc (v : OperandCount) (c : Bool) (a : Byte) : Statement (.inc v c a) := by
  cases v <;> cases c <;> intro <;> change tableOperation (aluByte _ _ 0b0101) = some .inc <;> decide

theorem dec (v : OperandCount) (c : Bool) (a : Byte) : Statement (.dec v c a) := by
  cases v <;> cases c <;> intro <;> change tableOperation (aluByte _ _ 0b0110) = some .dec <;> decide

theorem cmp (v : OperandCount) (c : Bool) (a b : Byte) : Statement (.cmp v c a b) := by
  cases v <;> cases c <;> intro <;> change tableOperation (aluByte _ _ 0b0111) = some .cmp <;> decide

theorem and (v : OperandCount) (c : Bool) (a b : Byte) : Statement (.and v c a b) := by
  cases v <;> cases c <;> intro <;> change tableOperation (aluByte _ _ 0b1000) = some .and <;> decide

theorem not (v : OperandCount) (c : Bool) (a : Byte) : Statement (.not v c a) := by
  cases v <;> cases c <;> intro <;> change tableOperation (aluByte _ _ 0b1001) = some .not <;> decide

theorem or (v : OperandCount) (c : Bool) (a b : Byte) : Statement (.or v c a b) := by
  cases v <;> cases c <;> intro <;> change tableOperation (aluByte _ _ 0b1010) = some .or <;> decide

theorem xor (v : OperandCount) (c : Bool) (a b : Byte) : Statement (.xor v c a b) := by
  cases v <;> cases c <;> intro <;> change tableOperation (aluByte _ _ 0b1011) = some .xor <;> decide

theorem shl (v : OperandCount) (c : Bool) (a b : Byte) : Statement (.shl v c a b) := by
  cases v <;> cases c <;> intro <;> change tableOperation (aluByte _ _ 0b1100) = some .shl <;> decide

theorem shr (v : OperandCount) (c : Bool) (a b : Byte) : Statement (.shr v c a b) := by
  cases v <;> cases c <;> intro <;> change tableOperation (aluByte _ _ 0b1101) = some .shr <;> decide

theorem tst (v : OperandCount) (c : Bool) (a b : Byte) : Statement (.tst v c a b) := by
  cases v <;> cases c <;> intro <;> change tableOperation (aluByte _ _ 0b1111) = some .tst <;> decide

theorem call (v : OperandCount) (a : Byte) : Statement (.call v a) := by
  cases v <;> intro <;> change tableOperation (controlByte _ 0b0000) = some .call <;> decide

theorem ret (v : OperandCount) : Statement (.ret v) := by
  cases v <;> intro <;> change tableOperation (controlByte _ 0b0001) = some .ret <;> decide

theorem jmp (v : OperandCount) (a : Byte) : Statement (.jmp v a) := by
  cases v <;> intro <;> change tableOperation (controlByte _ 0b0100) = some .jmp <;> decide

theorem jeq (v : OperandCount) (a : Byte) : Statement (.jeq v a) := by
  cases v <;> intro <;> change tableOperation (controlByte _ 0b0101) = some .jeq <;> decide

theorem jne (v : OperandCount) (a : Byte) : Statement (.jne v a) := by
  cases v <;> intro <;> change tableOperation (controlByte _ 0b0110) = some .jne <;> decide

theorem illegalCount (low : BitVec 6) : Statement (.illegalCount low) := by
  intro; revert low; decide

theorem illegalAlu (v : OperandCount) (c : Bool) : Statement (.illegalAlu v c) := by
  cases v <;> cases c <;> intro <;> decide

theorem illegalControl (v : OperandCount) (code : BitVec 4) : Statement (.illegalControl v code) := by
  unfold Statement; cases v <;> revert code <;> decide

theorem illegalPrimary (v : OperandCount) (code : BitVec 4) : Statement (.illegalPrimary v code) := by
  unfold Statement; cases v <;> revert code <;> decide

end Sys2Proof.Laws.OpcodeRow
end

