-- ==== Sys2Proof/Tests/Slice0.lean ====
section
/-! SUPPORT. Tests, each one step or one decoding, with the expected values from spec/95_test_vectors.md (vector ids in the
comments), 30_encoding.md (R50, R51, R55) or the rule named; and a witness for the hypotheses of every statement. -/

namespace Sys2Proof.Tests

open Sys2Proof Sys2Proof.Machine Sys2Proof.Claims

/-! ## Helpers -/

/-- The reset state with some registers set and bytes at an address where `pc` is too. -/
def start (regs : List (Fin 8 × Byte)) (pc : Byte) (bytes : List Byte) : State :=
  let s := regs.foldl (fun s r => s.setReg r.1 r.2) State.reset
  { s with pc := pc, mem := s.mem.loadFrom pc.toNat bytes }

/-- What `view` shows of the state after an outcome, if there is one. -/
def seen {α : Type} (r : Result) (view : State → α) : Option α :=
  match r with
  | .next t => some (view t)
  | .fault _ => none
  | .refused _ => none

/-- Registers 0 and 1 and `pc` after one step of `op 00 01` at address 0 (the convention of 95_test_vectors.md 2.3). -/
def aluStep (op : Byte) (x0 x1 : Byte) : Option (Byte × Byte × Byte) :=
  seen (step (start [(0, x0), (1, x1)] 0 [op, 0, 1])) fun t => (t.reg 0, t.reg 1, t.pc)

/-- The same for a one-register operation on register 1. -/
def aluStepOne (op : Byte) (x1 : Byte) : Option (Byte × Byte) :=
  seen (step (start [(1, x1)] 0 [op, 1])) fun t => (t.reg 1, t.pc)

/-- `run`, `pc` and the error record after one step. -/
def errorStep (s : State) : Option (RunState × Byte × Option ErrorRecord) :=
  seen (step s) fun t => (t.run, t.pc, t.err)

/-! ## Well-formedness: a term each check refuses -/

theorem test_wf_refuses_listed_primary_code : (Instr.illegalPrimary .zero 0b0001).wf = false := by decide

theorem test_wf_refuses_listed_control_code : (Instr.illegalControl .two 0b0110).wf = false := by decide

theorem test_wf_accepts_unlisted_codes :
    (Instr.illegalPrimary .zero 0b0000).wf = true ∧ (Instr.illegalControl .one 0b0111).wf = true := by decide

/-! ## Decoding: the canonical word of every constructor, field by field (R46, R50), and aliases (R51) -/

theorem test_decode_primary :
    decodeBytes 0b00000001 0 0 = .halt .zero ∧ decodeBytes 0b10000010 3 200 = .loadImmediate .two 3 200 ∧
    decodeBytes 0b01000101 4 0 = .push .one 4 ∧ decodeBytes 0b01000110 5 0 = .pop .one 5 ∧
    decodeBytes 0b01000111 6 0 = .print .one 6 := by decide

theorem test_decode_alu_two :
    decodeBytes 0b10100000 1 2 = .add .two false 1 2 ∧ decodeBytes 0b10100001 1 2 = .sub .two false 1 2 ∧
    decodeBytes 0b10100010 1 2 = .mul .two false 1 2 ∧ decodeBytes 0b10100011 1 2 = .div .two false 1 2 ∧
    decodeBytes 0b10100100 1 2 = .mod .two false 1 2 ∧ decodeBytes 0b10100111 1 2 = .cmp .two false 1 2 ∧
    decodeBytes 0b10101000 1 2 = .and .two false 1 2 ∧ decodeBytes 0b10101010 1 2 = .or .two false 1 2 ∧
    decodeBytes 0b10101011 1 2 = .xor .two false 1 2 ∧ decodeBytes 0b10101100 1 2 = .shl .two false 1 2 ∧
    decodeBytes 0b10101101 1 2 = .shr .two false 1 2 ∧ decodeBytes 0b10101111 1 2 = .tst .two false 1 2 := by decide

theorem test_decode_alu_one :
    decodeBytes 0b01100101 1 9 = .inc .one false 1 ∧ decodeBytes 0b01100110 2 9 = .dec .one false 2 ∧
    decodeBytes 0b01101001 3 9 = .not .one false 3 := by decide

theorem test_decode_control :
    decodeBytes 0b01010000 1 0 = .call .one 1 ∧ decodeBytes 0b00010001 1 0 = .ret .zero ∧
    decodeBytes 0b01010100 2 0 = .jmp .one 2 ∧ decodeBytes 0b01010101 3 0 = .jeq .one 3 ∧
    decodeBytes 0b01010110 4 0 = .jne .one 4 := by decide

theorem test_decode_illegal :
    decodeBytes 0b11000001 0 0 = .illegalCount 0b000001 ∧ decodeBytes 0b11101110 0 0 = .illegalCount 0b101110 ∧
    decodeBytes 0b00111110 0 0 = .illegalAlu .zero true ∧ decodeBytes 0b10011111 0 0 = .illegalControl .two 0b1111 ∧
    decodeBytes 0b10001000 0 0 = .illegalPrimary .two 0b1000 := by decide

/-- R51: 0x02, 0xB0, 0x91, 0x90, 0x35. -/
theorem test_decode_aliases :
    decodeBytes 0x02 3 7 = .loadImmediate .zero 3 7 ∧ decodeBytes 0xB0 0 1 = .add .two true 0 1 ∧
    decodeBytes 0x91 0 0 = .ret .two ∧ decodeBytes 0x90 1 0 = .call .two 1 ∧
    decodeBytes 0x35 1 0 = .inc .zero true 1 := by decide

/-- R55: the numbers of legal bytes and of illegal bytes of each kind. -/
theorem test_decode_byte_counts :
    let ops := (List.range 256).map fun n => (decodeBytes (BitVec.ofNat 8 n) 0 1).operation
    ops.count .illegalCount = 64 ∧ ops.count .illegalAlu = 6 ∧ ops.count .illegalControl = 33 ∧
      ops.count .illegalPrimary = 33 := by decide +kernel

/-- R50, R51: the bytes of PRINT r0, a long alias of PUSH r2 filled with 0, a short alias of LOAD-IMMEDIATE. -/
theorem test_encode_words :
    encode (.print .one 0) = [0x47, 0] ∧ encode (.push .two 2) = [0x85, 2, 0] ∧
    encode (.loadImmediate .zero 3 7) = [0x02, 3, 7] ∧ encode (.ret .zero) = [0x11] := by decide

theorem test_decode_needs_three_bytes : decode [0x01, 0x00] = .error .fewerThanThreeBytes := by rfl

/-- The host's word: the first byte is the least significant. -/
theorem test_decode_table_word :
    decodeTableWord 8 0x1FF = some (.illegalCount 0b111111) ∧ decodeTableWord 24 0x050082 = some (.loadImmediate .two 0 5) := by
  decide

/-! ## Fetch, decode, dispatch -/

/-- F7: HALT at 254 is not executed. -/
theorem test_fetch_range : errorStep (start [] 254 [0x01]) =
    some (.error, 254, some ⟨.addressOutOfRange, 0x01, 254, some 256⟩) := by decide

/-- F9: `next = 256`, nothing committed. -/
theorem test_next_pc_range : seen (step (start [] 253 [0x82, 0, 5])) (fun t => (t.reg 0, t.err)) =
    some (0, some ⟨.addressOutOfRange, 0x82, 253, some 256⟩) := by decide

/-- F10: a jump does not use `next`. -/
theorem test_jump_at_253 : seen (step (start [(1, 5)] 253 [0x94, 1])) (fun t => (t.pc, t.run)) = some (5, .running) := by
  decide

/-- F11, F12: a register operand byte above 7. -/
theorem test_register_index : errorStep (start [] 0 [0x47, 8]) =
    some (.error, 0, some ⟨.addressOutOfRange, 0x47, 0, some 8⟩) := by decide

/-- F13: the unused byte `b` is not checked. -/
theorem test_unused_operand : seen (step (start [(1, 4)] 0 [0x65, 1, 0xC8])) (fun t => (t.reg 1, t.pc)) = some (5, 2) := by
  decide

/-- F14: the alias 0x02 advances by 1. -/
theorem test_alias_length : seen (step (start [] 0 [0x02, 3, 7])) (fun t => (t.reg 3, t.pc)) = some (7, 1) := by decide

/-- F1 to F6: the four kinds of illegal byte. -/
theorem test_illegal_bytes :
    errorStep (start [] 0 [0x00]) = some (.error, 0, some ⟨.unsupportedInstruction, 0x00, 0, none⟩) ∧
    errorStep (start [] 0 [0xEE]) = some (.error, 0, some ⟨.unsupportedInstruction, 0xEE, 0, none⟩) ∧
    errorStep (start [] 0 [0xAE]) = some (.error, 0, some ⟨.unsupportedALUOperation, 0xAE, 0, none⟩) ∧
    errorStep (start [] 0 [0x57]) = some (.error, 0, some ⟨.unsupportedControlOp, 0x57, 0, none⟩) := by decide

/-- A word placed by the host is what the next step runs. -/
theorem test_fetch_word : seen (step (State.reset.withFetchWord 24 0x2A0182)) (fun t => (t.reg 1, t.pc)) = some (0x2A, 3) := by
  decide

/-! ## Primary -/

/-- P-1. -/
theorem test_halt : seen (step (start [] 11 [0x01])) (fun t => (t.run, t.pc)) = some (.halted, 11) := by decide

/-- P-3, P-4. -/
theorem test_load_immediate :
    seen (step (start [] 0 [0x82, 7, 0x40])) (fun t => (t.reg 7, t.pc)) = some (0x40, 3) ∧
    seen (step (start [] 0 [0x82, 2, 0xFF])) (fun t => (t.reg 2, t.pc)) = some (255, 3) := by decide

/-- P-6. -/
theorem test_print : seen (step (start [(1, 255)] 0 [0x47, 1])) (fun t => (t.out, t.pc)) = some ([.print 255], 2) := by decide

/-- P-8: PUSH of the stack pointer stores its new value. -/
theorem test_push_sp : seen (step (start [] 0 [0x45, 7])) (fun t => (t.reg 7, t.read 0xF3, t.pc)) = some (0xF3, 0xF3, 2) := by
  decide

/-- P-9: the stack pointer wraps. -/
theorem test_push_wrap : seen (step (start [(0, 0x5A), (7, 0)] 0 [0x45, 0])) (fun t => (t.reg 7, t.read 0xFF)) =
    some (0xFF, 0x5A) := by decide

/-- P-10: the popped byte stays in memory. -/
theorem test_pop : seen (step { start [(7, 0xF3)] 5 [0x46, 1] with mem := [(5, 0x46), (6, 1), (0xF3, 0x2A)] })
    (fun t => (t.reg 1, t.reg 7, t.pc, t.read 0xF3)) = some (0x2A, 0xF4, 7, 0x2A) := by decide

/-- P-11: POP into the stack pointer increments the popped byte. -/
theorem test_pop_sp : seen (step { State.reset with mem := [(0, 0x46), (1, 7), (0xF4, 0x20)] }) (fun t => (t.reg 7, t.pc)) =
    some (0x21, 2) := by decide

/-! ## ALU -/

/-- A2, A3. -/
theorem test_add : aluStep 0xA0 200 100 = some (44, 100, 3) ∧ aluStep 0xA0 255 1 = some (0, 1, 3) := by decide

/-- A5, A6. -/
theorem test_sub : aluStep 0xA1 10 4 = some (6, 4, 3) ∧ aluStep 0xA1 3 5 = some (254, 5, 3) := by decide

/-- A9, A10. -/
theorem test_mul : aluStep 0xA2 20 13 = some (4, 13, 3) ∧ aluStep 0xA2 255 255 = some (1, 255, 3) := by decide

/-- A13, A14. -/
theorem test_div : aluStep 0xA3 7 2 = some (3, 2, 3) ∧ aluStep 0xA3 1 2 = some (0, 2, 3) := by decide

/-- A19, A20: the index is checked before the divisor, the divisor before `next`. -/
theorem test_div_priority :
    errorStep (start [(0, 1)] 0 [0xA3, 0, 9]) = some (.error, 0, some ⟨.addressOutOfRange, 0xA3, 0, some 9⟩) ∧
    errorStep (start [(0, 5)] 253 [0xA3, 0, 1]) = some (.error, 253, some ⟨.divisionByZero, 0xA3, 253, none⟩) := by decide

/-- A22, A23. -/
theorem test_mod : aluStep 0xA4 255 16 = some (15, 16, 3) ∧ aluStep 0xA4 5 7 = some (5, 7, 3) := by decide

/-- A24: MOD by zero changes nothing. -/
theorem test_mod_by_zero : seen (step (start [(0, 9)] 0 [0xA4, 0, 1])) (fun t => (t.reg 0, t.run, t.err)) =
    some (9, .error, some ⟨.divisionByZero, 0xA4, 0, none⟩) := by decide

/-- A25, A26. -/
theorem test_inc : aluStepOne 0x65 4 = some (5, 2) ∧ aluStepOne 0x65 255 = some (0, 2) := by decide

/-- A27, A28. -/
theorem test_dec : aluStepOne 0x66 5 = some (4, 2) ∧ aluStepOne 0x66 0 = some (255, 2) := by decide

/-- A34, A35. -/
theorem test_not : aluStepOne 0x69 0x0F = some (0xF0, 2) ∧ aluStepOne 0x69 0 = some (255, 2) := by decide

/-- A29 to A31. -/
theorem test_cmp :
    seen (step (start [(0, 4), (1, 4)] 0 [0xA7, 0, 1])) (fun t => t.fl) = some 0b001 ∧
    seen (step (start [(0, 255), (1, 1)] 0 [0xA7, 0, 1])) (fun t => t.fl) = some 0b010 ∧
    seen (step (start [(0, 1), (1, 255)] 0 [0xA7, 0, 1])) (fun t => t.fl) = some 0b100 := by decide

/-- A33, A36, A37. -/
theorem test_and_or_xor : aluStep 0xA8 0xCC 0xAA = some (0x88, 0xAA, 3) ∧ aluStep 0xAA 0xCC 0xAA = some (0xEE, 0xAA, 3) ∧
    aluStep 0xAB 0xCC 0xAA = some (0x66, 0xAA, 3) := by decide

/-- A39 to A42. -/
theorem test_shl : aluStep 0xAC 0x0B 2 = some (0x2C, 2, 3) ∧ aluStep 0xAC 3 7 = some (0x80, 7, 3) ∧
    aluStep 0xAC 1 8 = some (0, 8, 3) ∧ aluStep 0xAC 0xFF 200 = some (0, 200, 3) := by decide

/-- A44 to A47. -/
theorem test_shr : aluStep 0xAD 0xB0 4 = some (0x0B, 4, 3) ∧ aluStep 0xAD 0xFF 1 = some (0x7F, 1, 3) ∧
    aluStep 0xAD 0x80 7 = some (1, 7, 3) ∧ aluStep 0xAD 0xFF 8 = some (0, 8, 3) := by decide

/-- A48, A49: a failing TST goes on, and the flags stay. -/
theorem test_tst :
    seen (step (start [(0, 8), (1, 8)] 0 [0xAF, 0, 1])) (fun t => (t.out, t.pc)) = some ([.tst true], 3) ∧
    seen (step { start [(0, 8), (1, 9)] 0 [0xAF, 0, 1] with fl := 0b010 }) (fun t => (t.out, t.fl, t.run)) =
      some ([.tst false], 0b010, .running) := by decide

/-! ## Control flow -/

/-- C-1, C-4. -/
theorem test_call :
    seen (step (start [(1, 9)] 6 [0x50, 1])) (fun t => (t.reg 7, t.read 0xF3, t.pc)) = some (0xF3, 8, 9) ∧
    seen (step (start [(1, 0x20)] 4 [0x10, 1])) (fun t => (t.reg 7, t.read 0xF3, t.pc)) = some (0xF3, 5, 0x20) := by decide

/-- C-2: CALL through the stack pointer. -/
theorem test_call_sp : seen (step (start [] 0 [0x50, 7])) (fun t => (t.reg 7, t.read 0xF3, t.pc)) = some (0xF3, 2, 0xF3) := by
  decide

/-- C-5. -/
theorem test_ret : seen (step { start [(7, 0xF3)] 11 [] with mem := [(11, 0x11), (0xF3, 8)] }) (fun t => (t.pc, t.reg 7)) =
    some (8, 0xF4) := by decide

/-- C-7. -/
theorem test_jmp : seen (step (start [(2, 0x20)] 4 [0x54, 2])) (fun t => t.pc) = some 0x20 := by decide

/-- C-9 to C-11. -/
theorem test_jeq :
    seen (step { start [(3, 9)] 17 [0x55, 3] with fl := 0b001 }) (fun t => t.pc) = some 9 ∧
    seen (step { start [(3, 9)] 17 [0x55, 3] with fl := 0b010 }) (fun t => t.pc) = some 19 ∧
    seen (step { start [(3, 9)] 17 [0x55, 3] with fl := 0b100 }) (fun t => t.pc) = some 19 := by decide

/-- C-12, C-13. -/
theorem test_jne :
    seen (step { start [(3, 9)] 17 [0x56, 3] with fl := 0b010 }) (fun t => t.pc) = some 9 ∧
    seen (step { start [(3, 9)] 17 [0x56, 3] with fl := 0b001 }) (fun t => t.pc) = some 19 := by decide

/-! ## Load and output -/

/-- R58: a comment, a blank line and a byte with something after it. -/
theorem test_program_file : programOfLines ["# P1".toList, [], "10000010 # LDI".toList] = some [0x82] := by decide

/-- R134: fewer than 8 binary characters make the load fail. -/
theorem test_program_file_malformed : programOfLines ["1000001".toList] = none ∧ programOfLines ["1000x010".toList] = none := by
  decide

/-- R23: the lines of `Print(8)`, `Print(255)` and `Tst(true)`. -/
theorem test_output_text :
    ({ State.reset with out := [.print 8, .print 255, .tst true] } : State).outputText = "8\n255\nPASS\n".toList := by decide

/-! ## Witnesses: the hypotheses of the statements hold together, at the ends of their ranges -/

/-- A running state with `pc` at 253, register 0 at 0x40 and a stack that would wrap. -/
def low : State := start [(0, 0x40), (7, 0)] 253 [0x82, 0, 5]

/-- The clauses of `TwoRegisterRule` and `OneRegisterRule`, on which the statements about ADD, SUB, MUL, INC, DEC, NOT, AND,
OR, XOR, SHL, SHR, CMP, TST, LOAD-IMMEDIATE, PRINT, PUSH, POP, and (index and `next` clauses) CALL and JMP rest; also
AluBlockDecidesEveryAluInstruction. Operand 7 and `next = 255`; operand 8; `next = 256`. -/
theorem witness_register_rules :
    ((7 : Byte).toNat = (7 : Fin 8).val ∧ (0 : Byte).toNat = (0 : Fin 8).val ∧ nextOf low .one ≤ 255) ∧
    7 < (8 : Byte).toNat ∧ ((7 : Byte).toNat ≤ 7 ∧ 7 < (255 : Byte).toNat) ∧
    ((7 : Byte).toNat ≤ 7 ∧ (0 : Byte).toNat ≤ 7 ∧ 255 < nextOf low .two) := by decide

/-- The clauses of DivAndModDivideOrRaise: a divisor 0 and one that is not, with `next` in range and not. -/
theorem witness_DivAndModDivideOrRaise :
    ((1 : Byte).toNat = (1 : Fin 8).val ∧ low.x[(1 : Fin 8)].toNat = 0) ∧
    ((0 : Byte).toNat = (0 : Fin 8).val ∧ low.x[(0 : Fin 8)].toNat ≠ 0 ∧ nextOf low .one ≤ 255 ∧ 255 < nextOf low .two) := by
  decide

/-- The clauses of ConditionalJumpsFollowTheEqualBit, JEQ (`taken` true) and JNE: the equal bit set and clear, `next` in range
and not. -/
theorem witness_ConditionalJumpsFollowTheEqualBit :
    ((7 : Byte).toNat = (7 : Fin 8).val ∧ ({ low with fl := 0b001 } : State).fl.getLsbD 0 = true ∧ low.fl.getLsbD 0 ≠ true) ∧
    ((7 : Byte).toNat ≤ 7 ∧ nextOf low .one ≤ 255 ∧ 255 < nextOf low .two) := by decide

theorem witness_DecodingAnEncodedInstructionGivesItBack :
    (Instr.illegalControl .two 0b1111).wf = true ∧ 2 ≤ ([0, 255] : List Byte).length := by decide

/-- The five clauses of ClassSelectionFollowsThePrecedence. -/
theorem witness_ClassSelectionFollowsThePrecedence :
    (0xB0#8).extractLsb' 6 2 ≠ 3#2 ∧ (0xB0#8).getLsbD 5 = true ∧
    ((0x9F#8).extractLsb' 6 2 ≠ 3#2 ∧ (0x9F#8).getLsbD 5 = false ∧ (0x9F#8).getLsbD 4 = true) ∧
    ((0x00#8).extractLsb' 6 2 ≠ 3#2 ∧ (0x00#8).getLsbD 5 = false ∧ (0x00#8).getLsbD 4 = false) ∧
    ((0x30#8).extractLsb' 6 2 ≠ 3#2 ∧ (0x30#8).extractLsb' 0 6 = (0xB0#8).extractLsb' 0 6) := by decide

/-- The code clauses of IllegalOpcodesRaiseTheirErrors. -/
theorem witness_IllegalOpcodesRaiseTheirErrors :
    0b1111#4 ∉ [0b0000#4, 0b0001#4, 0b0100#4, 0b0101#4, 0b0110#4] ∧
    0b0000#4 ∉ [0b0001#4, 0b0010#4, 0b0101#4, 0b0110#4, 0b0111#4] := by decide

theorem witness_StepRunsTheDecodedInstruction :
    low.run = .running ∧ low.pc.toNat ≤ 253 ∧
      decode [low.read low.pc, low.read (low.pc + 1), low.read (low.pc + 2)] = .ok (.loadImmediate .two 0 5) :=
  ⟨rfl, by decide, rfl⟩

theorem witness_FetchBeyondMemoryRaises : (start [] 254 []).run = .running ∧ 253 < (start [] 254 []).pc.toNat := by decide

theorem witness_NoStepAfterTheEnd : State.reset.halt.run = .halted ∧ ({ State.reset with run := .error } : State).run = .error := by
  decide

/-- RunningMachineAlwaysSteps, StepRaisesExactlyTheFirstError (both of its cases). -/
theorem witness_running : low.run = .running ∧ firstError low = some (.addressOutOfRange, some 256) ∧
    firstError (start [] 253 [0x01]) = none := by decide

/-- An instruction of RegisterInstructionsChangeOnlyTheirRegister with a next state. -/
theorem witness_RegisterInstructionsChangeOnlyTheirRegister :
    ∃ t, exec (.add .one true 0 7) low = .next t ∧ t.run = .running := ⟨_, rfl, rfl⟩

theorem witness_OtherInstructionsChangeNoRegisterOrMemory :
    ∃ t, exec (.cmp .one true 0 7) low = .next t ∧ t.run = .running := ⟨_, rfl, rfl⟩

/-- Also OnlyCmpWritesAndOnlyBranchesReadFlags and OnlyStackInstructionsTouchMemory: with POP, and a memory that holds the
same byte at the stack pointer. -/
theorem witness_PopAndRetChangeNoMemory :
    low.run = .running ∧ (∃ t, exec (.pop .one 7) low = .next t ∧ t.run = .running) ∧
      Memory.read [(0, 0), (1, 9)] low.sp.toNat = low.read low.sp :=
  ⟨rfl, ⟨_, rfl, rfl⟩, by decide⟩

/-- Also the first half of PushThenPopRestoresTheRegisters. -/
theorem witness_PushAndCallChangeOneByteAndTheStackPointer :
    (∃ t, exec (.push .one 7) low = .next t ∧ t.run = .running) ∧ ∃ t, exec (.call .one 7) low = .next t ∧ t.run = .running :=
  ⟨⟨_, rfl, rfl⟩, ⟨_, rfl, rfl⟩⟩

theorem witness_OnlyCmpWritesAndOnlyBranchesReadFlags :
    low.run = .running ∧ (∃ t, exec (.jeq .one 0) low = .next t) ∧ (0b110#3).getLsbD 0 = low.fl.getLsbD 0 :=
  ⟨rfl, ⟨_, rfl⟩, by decide⟩

/-- A step for OutputIsOnlyAppendedTo, OnlyHaltHalts and SequentialInstructionsAdvanceByTheirLength (`next = 255`). -/
theorem witness_step :
    seen (step (start [] 252 [0x87, 7])) (fun t => (t.run, t.out, t.pc)) = some (.running, [.print 0xF4], 255) ∧
    (fetchInstr (start [] 252 [0x87, 7])).operation ∉ [.halt, .call, .ret, .jmp, .jeq, .jne] := by decide

theorem witness_ErrorsCommitNothing : ∃ t, step low = .next t ∧ t.run = .error := ⟨_, rfl, rfl⟩

theorem witness_EveryStepKeepsTheInvariant :
    State.reset.mem.wf = true ∧ State.reset.FlagsLegal ∧ State.reset.err = none ∧ State.reset.run ≠ .error ∧
      ∃ t, step State.reset = .next t := ⟨rfl, by decide, rfl, by decide, ⟨_, rfl⟩⟩

/-- Both clauses of FlagsStayOneHotAfterACompare. -/
theorem witness_FlagsStayOneHotAfterACompare :
    (∃ t, exec (.cmp .one false 0 7) low = .next t ∧ t.run ≠ .error) ∧
    ({ low with fl := 0b100 } : State).fl ∈ [0b001#3, 0b010#3, 0b100#3] ∧ ∃ t, step { low with fl := 0b100 } = .next t :=
  ⟨⟨_, rfl, by decide⟩, by decide, ⟨_, rfl⟩⟩

/-- PUSH and then POP on register 7, from a stack pointer that wraps. -/
theorem witness_PushThenPopRestoresTheRegisters :
    ∃ t u, exec (.push .zero 7) low = .next t ∧ t.run ≠ .error ∧ exec (.pop .zero 7) t = .next u ∧ u.run ≠ .error :=
  ⟨_, _, rfl, by decide, rfl, by decide⟩

theorem witness_CallThenRetReturnsAfterTheCall : ∃ t, exec (.call .one 7) low = .next t ∧ t.run ≠ .error :=
  ⟨_, rfl, by decide⟩

/-- Equal values (the same register) and different ones. -/
theorem witness_AfterCmpExactlyOneBranchJumps :
    (∃ t, exec (.cmp .zero false 0 0) low = .next t ∧ t.run ≠ .error ∧ nextOf t .zero ≤ 255 ∧
      low.x[(0 : Fin 8)] = low.x[(0 : Fin 8)]) ∧
    ∃ t, exec (.cmp .zero false 0 7) low = .next t ∧ t.run ≠ .error ∧ nextOf t .zero ≤ 255 ∧
      low.x[(0 : Fin 8)] ≠ low.x[(7 : Fin 8)] :=
  ⟨⟨_, rfl, by decide, by decide, rfl⟩, ⟨_, rfl, by decide, by decide, by decide⟩⟩

theorem witness_LoadImmediateThenPrintPrintsTheImmediate :
    ∃ t u, exec (.loadImmediate .zero 7 255) low = .next t ∧ t.run ≠ .error ∧ exec (.print .zero 7) t = .next u ∧ u.run ≠ .error :=
  ⟨_, _, rfl, by decide, rfl, by decide⟩

/-- Program P5: the PUSH at 6 writes address 8, which is fetched next. -/
theorem witness_PushedByteIsFetchedNext :
    ∃ t, exec (.push .one 0) (start [(0, 1), (7, 9)] 6 [0x45, 0]) = .next t ∧ t.run = .running ∧ t.pc.toNat ≤ 253 ∧
      t.pc = (start [(0, 1), (7, 9)] 6 [0x45, 0]).x[7] - 1 :=
  ⟨_, rfl, rfl, by decide, by decide⟩

/-- Both clauses: a canonical memory, and one reached by writes that lists the same bytes. -/
theorem witness_CanonicalMemoriesWithEqualBytesAreEqual :
    low.mem.wf = true ∧ Memory.wf [(0, 1), (255, 2)] = true ∧ Memory.wf ((Memory.write [(0, 1)] 7 3).write 255 2 |>.write 7 0) = true ∧
      Memory.write (Memory.write (Memory.write [(0, 1)] 7 3) 255 2) 7 0 = [(0, 1), (255, 2)] := by decide

/-- Both clauses of LoadPlacesTheProgramFromAddressZero at their ends. -/
theorem witness_LoadPlacesTheProgramFromAddressZero :
    (List.replicate 256 (0x01 : Byte)).length ≤ 256 ∧ 256 < (List.replicate 257 (0x01 : Byte)).length := by
  rw [List.length_replicate, List.length_replicate]
  decide

/-- The clauses of ProgramLinesReadAsBytes. -/
theorem witness_ProgramLinesReadAsBytes :
    ('#' ≠ '0' ∧ '#' ≠ '1') ∧ ['0', '1', '0', '1', '0', '1'].length < 7 ∧
      ∃ d ∈ ['0', '1', '0', '1', '0', '1', 'x', '1'].take 7, d ≠ '0' ∧ d ≠ '1' := by
  refine ⟨by decide, by decide, 'x', by decide, by decide, by decide⟩

end Sys2Proof.Tests
end

section
/-! PROOFS. The layer the statements about the state rest on: what the decoder keeps of an opcode byte, the one inversion
of `exec` and of `step` ("if it answers next t, then one of these cases holds"), and the frame of every instruction read
off from it. Then the statements themselves. -/

/-! ## The decoder keeps the opcode byte (30_encoding.md R46, R47) -/

namespace Sys2Proof

theorem operandCount?_primaryByte (v : OperandCount) (code : BitVec 4) :
    operandCount? (fieldCount (primaryByte v code)) = some v := by simp [primaryByte]

theorem operandCount?_aluByte (v : OperandCount) (c : Bool) (code : BitVec 4) :
    operandCount? (fieldCount (aluByte v c code)) = some v := by simp [aluByte]

theorem operandCount?_controlByte (v : OperandCount) (code : BitVec 4) :
    operandCount? (fieldCount (controlByte v code)) = some v := by simp [controlByte]

theorem bits_of_operandCount? {n : BitVec 2} {v : OperandCount} (h : operandCount? n = some v) : v.bits = n := by
  revert n v; decide

/-- The length is one more than the two high bits of the opcode byte (R45). -/
theorem length_of_operandCount? {ir : Byte} {v : OperandCount} (h : operandCount? (fieldCount ir) = some v) :
    v.length = ir.toNat / 64 + 1 := by
  have hlt := ir.isLt
  have hfield : (fieldCount ir).toNat = ir.toNat / 64 := by
    simp only [fieldCount, BitVec.extractLsb'_toNat, Nat.shiftRight_eq_div_pow]
    omega
  rw [OperandCount.length, bits_of_operandCount? h, hfield]

theorem length_le_three (v : OperandCount) : v.length ≤ 3 := by
  cases v <;> decide

theorem opcode_decodePrimary (v : OperandCount) (code : BitVec 4) (a b : Byte) :
    (decodePrimary v code a b).opcode = primaryByte v code := by
  unfold decodePrimary; split <;> rfl

theorem opcode_decodeAlu (v : OperandCount) (c : Bool) (code : BitVec 4) (a b : Byte) :
    (decodeAlu v c code a b).opcode = aluByte v c code := by
  unfold decodeAlu
  split
  case h_16 =>
    have hcode : code = 0b1110 := by decide +revert
    subst hcode; rfl
  all_goals rfl

theorem opcode_decodeControl (v : OperandCount) (code : BitVec 4) (a : Byte) :
    (decodeControl v code a).opcode = controlByte v code := by
  unfold decodeControl; split <;> rfl

theorem opcode_illegalCount {ir : Byte} (h : operandCount? (fieldCount ir) = none) :
    (Instr.illegalCount (ir.extractLsb' 0 6)).opcode = ir := by
  revert ir; decide

/-- Decoding drops and moves no bit of the opcode byte. -/
theorem opcode_decodeBytes (ir a b : Byte) : (decodeBytes ir a b).opcode = ir := by
  unfold decodeBytes
  cases hv : operandCount? (fieldCount ir) with
  | none => exact opcode_illegalCount hv
  | some v =>
    have hbits := bits_of_operandCount? hv
    have hfields := opcodeByte_fields ir
    cases hA : fieldAlu ir with
    | true => simpa [classOf, hA, opcode_decodeAlu, aluByte, hbits] using hfields
    | false =>
      cases hC : fieldControl ir with
      | true => simpa [classOf, hA, hC, opcode_decodeControl, controlByte, hbits] using hfields
      | false => simpa [classOf, hA, hC, opcode_decodePrimary, primaryByte, hbits] using hfields

end Sys2Proof
end

section
/-! ## What an instruction can do

`Commits s i t` lists the ways in which `i` completes in `s` and ends in `t`; `exec_cases` is the inversion of `exec`: it
completes in one of these ways, or raises with a detail its error kind allows. -/

namespace Sys2Proof.Machine

open Sys2Proof Sys2Proof.Claims

/-- The operand byte that names the register an instruction writes, if it names one (10_state.md R13). -/
def destination? : Instr → Option Byte
  | .loadImmediate _ a _ | .pop _ a => some a
  | .add _ _ a _ | .sub _ _ a _ | .mul _ _ a _ | .div _ _ a _ | .mod _ _ a _ => some a
  | .inc _ _ a | .dec _ _ a | .not _ _ a => some a
  | .and _ _ a _ | .or _ _ a _ | .xor _ _ a _ | .shl _ _ a _ | .shr _ _ a _ => some a
  | _ => none

/-- The values of `fl` after a compare (10_state.md R19). -/
def oneHotFlags : List (BitVec 3) := [0b001, 0b010, 0b100]

theorem compareFlags_oneHot (va vb : Byte) : compareFlags va vb ∈ oneHotFlags := by
  unfold compareFlags
  split
  · decide
  · split <;> decide

/-- What an instruction that ends in `pc <- next` has done before that: from `s` to `done`. -/
inductive Effect (s : State) : Instr → State → Prop
  | writesReg {i : Instr} {a : Byte} {ra : Fin 8} (value : Byte) (hdest : destination? i = some a)
      (ha : a.toNat = ra.val) : Effect s i (s.setReg ra value)
  | prints (v : OperandCount) (a n : Byte) : Effect s (.print v a) (s.emit (.print n))
  | tests (v : OperandCount) (c : Bool) (a b : Byte) (pass : Bool) : Effect s (.tst v c a b) (s.emit (.tst pass))
  | compares (v : OperandCount) (c : Bool) (a b : Byte) {f : BitVec 3} (hf : f ∈ oneHotFlags) :
      Effect s (.cmp v c a b) (s.setFlags f)
  | pushes (v : OperandCount) (a value : Byte) : Effect s (.push v a) (s.decSp.write s.decSp.sp value)
  | pops (v : OperandCount) {a : Byte} {ra : Fin 8} (value : Byte) (ha : a.toNat = ra.val) :
      Effect s (.pop v a) (s.setReg ra value).incSp
  | jeqFallsThrough (v : OperandCount) (a : Byte) : Effect s (.jeq v a) s
  | jneFallsThrough (v : OperandCount) (a : Byte) : Effect s (.jne v a) s

/-- How an instruction completes: from `s` to the next state `t`. -/
inductive Commits (s : State) : Instr → State → Prop
  | halts (v : OperandCount) : Commits s (.halt v) s.halt
  | advances {i : Instr} {v : OperandCount} {done : State} (hcount : operandCount? (fieldCount i.opcode) = some v)
      (heffect : Effect s i done) (hnext : s.pc.toNat + v.length ≤ 255) :
      Commits s i (done.setPc (BitVec.ofNat 8 (s.pc.toNat + v.length)))
  | calls (v : OperandCount) (a ret target : Byte) :
      Commits s (.call v a) ((s.decSp.write s.decSp.sp ret).setPc target)
  | returns (v : OperandCount) (target : Byte) : Commits s (.ret v) (s.setPc target).incSp
  | jumps {i : Instr} (target : Byte) (hjump : i.operation ∈ [.jmp, .jeq, .jne]) : Commits s i (s.setPc target)

/-- What `exec` answers: the instruction completes, or raises with a detail its error kind allows. -/
inductive Answers (s : State) (i : Instr) : Result → Prop
  | commits {t : State} (h : Commits s i t) : Answers s i (.next t)
  | raises {kind : ErrorKind} {detail : Option Nat}
      (h : ({ kind := kind, opcode := i.opcode, pc := s.pc, detail := detail } : ErrorRecord).DetailLegal) :
      Answers s i (.next (errorState kind i.opcode detail s))

/-! ### The shared operations answer so -/

theorem Answers.raises_address {s : State} {i : Instr} {d : Nat} (hlow : 7 < d) (hhigh : d ≤ 256) :
    Answers s i (.next (errorState .addressOutOfRange i.opcode (some d) s)) :=
  .raises (by simpa [ErrorRecord.DetailLegal] using ⟨hlow, hhigh⟩)

theorem Answers.raises_noDetail {s : State} {i : Instr} {kind : ErrorKind} (hkind : kind ≠ .addressOutOfRange) :
    Answers s i (.next (errorState kind i.opcode none s)) :=
  .raises (by simp [ErrorRecord.DetailLegal, hkind])

theorem Answers.withReg {s : State} {i : Instr} {a : Byte} {k : Fin 8 → Result}
    (h : ∀ ra : Fin 8, a.toNat = ra.val → Answers s i (k ra)) : Answers s i (withReg i.opcode a s k) := by
  obtain ⟨ra, ha, heq⟩ | ⟨hlarge, heq⟩ := withReg_cases i.opcode a s k
  · rw [heq]; exact h ra ha
  · rw [heq]; exact raises_address hlarge (by have := a.isLt; omega)

theorem Answers.withNext {s : State} {i : Instr} {v : OperandCount} {k : Byte → Result}
    (h : s.pc.toNat + v.length ≤ 255 → Answers s i (k (BitVec.ofNat 8 (s.pc.toNat + v.length)))) :
    Answers s i (withNext i.opcode v s k) := by
  by_cases hnext : s.pc.toNat + v.length ≤ 255
  · rw [withNext_of_le hnext]; exact h hnext
  · rw [withNext_of_gt (by omega)]; exact raises_address (by decide) (by decide)

theorem Answers.advance {s done : State} {i : Instr} {v : OperandCount}
    (hcount : operandCount? (fieldCount i.opcode) = some v) (heffect : Effect s i done) :
    Answers s i (advance i.opcode v s done) :=
  Answers.withNext fun hnext => .commits (.advances hcount heffect hnext)

/-- The ALU answers a value for the first register, or that the divisor is 0. -/
def AluAnswer.ValueOrDivision (answer : AluAnswer) : Prop := (∃ value, answer = .result value) ∨ answer = .divisionByZero

theorem aluDiv_valueOrDivision (va vb : Byte) : (aluDiv va vb).ValueOrDivision := by
  unfold aluDiv
  split
  · exact .inr rfl
  · exact .inl ⟨_, rfl⟩

theorem aluMod_valueOrDivision (va vb : Byte) : (aluMod va vb).ValueOrDivision := by
  unfold aluMod
  split
  · exact .inr rfl
  · exact .inl ⟨_, rfl⟩

theorem Answers.commitAlu {s : State} {i : Instr} {v : OperandCount} {a : Byte} {ra : Fin 8} {answer : AluAnswer}
    (hcount : operandCount? (fieldCount i.opcode) = some v) (hdest : destination? i = some a) (ha : a.toNat = ra.val)
    (h : answer.ValueOrDivision) : Answers s i (commitAlu i.opcode v ra s answer) := by
  obtain ⟨value, rfl⟩ | rfl := h
  · exact Answers.advance hcount (.writesReg value hdest ha)
  · exact raises_noDetail (by decide)

theorem Answers.aluTwo {s : State} {i : Instr} {v : OperandCount} {a b : Byte} {op : Byte → Byte → AluAnswer}
    (hcount : operandCount? (fieldCount i.opcode) = some v) (hdest : destination? i = some a)
    (hop : ∀ va vb, (op va vb).ValueOrDivision) : Answers s i (aluTwo op i.opcode v a b s) :=
  Answers.withReg fun _ ha => Answers.withReg fun _ _ => Answers.commitAlu hcount hdest ha (hop _ _)

theorem Answers.aluOne {s : State} {i : Instr} {v : OperandCount} {a : Byte} {op : Byte → AluAnswer}
    (hcount : operandCount? (fieldCount i.opcode) = some v) (hdest : destination? i = some a)
    (hop : ∀ va, (op va).ValueOrDivision) : Answers s i (aluOne op i.opcode v a s) :=
  Answers.withReg fun _ ha => Answers.commitAlu hcount hdest ha (hop _)

/-! ### The instructions -/

theorem execJeq_answers (v : OperandCount) (a : Byte) (s : State) : Answers s (.jeq v a) (execJeq v a s) :=
  Answers.withReg (i := .jeq v a) fun ra _ => by
    split
    · exact .commits (.jumps _ (by simp [Instr.operation]))
    · exact Answers.advance (operandCount?_controlByte v _) (.jeqFallsThrough v a)

theorem execJne_answers (v : OperandCount) (a : Byte) (s : State) : Answers s (.jne v a) (execJne v a s) :=
  Answers.withReg (i := .jne v a) fun ra _ => by
    split
    · exact Answers.advance (operandCount?_controlByte v _) (.jneFallsThrough v a)
    · exact .commits (.jumps _ (by simp [Instr.operation]))

theorem exec_answers (i : Instr) (s : State) : Answers s i (exec i s) := by
  cases i with
  | halt v => exact .commits (.halts v)
  | loadImmediate v a imm =>
    exact Answers.withReg fun _ ha => Answers.advance (operandCount?_primaryByte v _) (.writesReg imm rfl ha)
  | push v a => exact Answers.withReg fun _ _ => Answers.advance (operandCount?_primaryByte v _) (.pushes v a _)
  | pop v a => exact Answers.withReg fun _ ha => Answers.advance (operandCount?_primaryByte v _) (.pops v _ ha)
  | print v a => exact Answers.withReg fun _ _ => Answers.advance (operandCount?_primaryByte v _) (.prints v a _)
  | add v c a b => exact Answers.aluTwo (operandCount?_aluByte v c _) rfl fun _ _ => .inl ⟨_, rfl⟩
  | sub v c a b => exact Answers.aluTwo (operandCount?_aluByte v c _) rfl fun _ _ => .inl ⟨_, rfl⟩
  | mul v c a b => exact Answers.aluTwo (operandCount?_aluByte v c _) rfl fun _ _ => .inl ⟨_, rfl⟩
  | div v c a b => exact Answers.aluTwo (operandCount?_aluByte v c _) rfl aluDiv_valueOrDivision
  | mod v c a b => exact Answers.aluTwo (operandCount?_aluByte v c _) rfl aluMod_valueOrDivision
  | inc v c a => exact Answers.aluOne (operandCount?_aluByte v c _) rfl fun _ => .inl ⟨_, rfl⟩
  | dec v c a => exact Answers.aluOne (operandCount?_aluByte v c _) rfl fun _ => .inl ⟨_, rfl⟩
  | cmp v c a b =>
    exact Answers.withReg fun _ _ => Answers.withReg fun _ _ =>
      Answers.advance (operandCount?_aluByte v c _) (.compares v c a b (compareFlags_oneHot _ _))
  | and v c a b => exact Answers.aluTwo (operandCount?_aluByte v c _) rfl fun _ _ => .inl ⟨_, rfl⟩
  | not v c a => exact Answers.aluOne (operandCount?_aluByte v c _) rfl fun _ => .inl ⟨_, rfl⟩
  | or v c a b => exact Answers.aluTwo (operandCount?_aluByte v c _) rfl fun _ _ => .inl ⟨_, rfl⟩
  | xor v c a b => exact Answers.aluTwo (operandCount?_aluByte v c _) rfl fun _ _ => .inl ⟨_, rfl⟩
  | shl v c a b => exact Answers.aluTwo (operandCount?_aluByte v c _) rfl fun _ _ => .inl ⟨_, rfl⟩
  | shr v c a b => exact Answers.aluTwo (operandCount?_aluByte v c _) rfl fun _ _ => .inl ⟨_, rfl⟩
  | tst v c a b =>
    exact Answers.withReg fun _ _ => Answers.withReg fun _ _ =>
      Answers.advance (operandCount?_aluByte v c _) (.tests v c a b _)
  | call v a => exact Answers.withReg fun _ _ => Answers.withNext fun _ => .commits (.calls v a _ _)
  | ret v => exact .commits (.returns v _)
  | jmp v a => exact Answers.withReg fun _ _ => .commits (.jumps _ (by simp [Instr.operation]))
  | jeq v a => exact execJeq_answers v a s
  | jne v a => exact execJne_answers v a s
  | illegalCount low => exact Answers.raises_noDetail (by decide)
  | illegalAlu v c => exact Answers.raises_noDetail (by decide)
  | illegalControl v code => exact Answers.raises_noDetail (by decide)
  | illegalPrimary v code => exact Answers.raises_noDetail (by decide)

/-- The inversion of `exec`. -/
theorem exec_cases {i : Instr} {s t : State} (h : exec i s = .next t) :
    Commits s i t ∨ ∃ kind detail,
      ({ kind := kind, opcode := i.opcode, pc := s.pc, detail := detail } : ErrorRecord).DetailLegal ∧
        t = errorState kind i.opcode detail s := by
  have hanswers := exec_answers i s
  rw [h] at hanswers
  cases hanswers with
  | commits hcommits => exact .inl hcommits
  | raises hlegal => exact .inr ⟨_, _, hlegal, rfl⟩

/-- The inversion of `step`: the instruction fetched runs, or the fetch is out of range (40_fetch_decode_dispatch.md
R60, R62). -/
theorem step_cases {s t : State} (h : step s = .next t) :
    s.run = .running ∧
      (s.pc.toNat ≤ 253 ∧ exec (fetchInstr s) s = .next t ∨
        253 < s.pc.toNat ∧ t = errorState .addressOutOfRange (s.read s.pc) (some 256) s) := by
  unfold step at h
  cases hrun : s.run with
  | running =>
    rw [hrun] at h
    refine ⟨rfl, ?_⟩
    by_cases hfetch : s.pc.toNat ≤ 253
    · exact .inl ⟨hfetch, by simpa [fetchInRange_iff.mpr hfetch] using h⟩
    · have hout : s.fetchInRange = false := by simpa [State.fetchInRange] using hfetch
      refine .inr ⟨by omega, ?_⟩
      simpa [hout, raiseFetchRange, raise_eq, eq_comm] using h
  | halted => simp [hrun] at h
  | error => simp [hrun] at h

theorem opcode_fetchInstr (s : State) : (fetchInstr s).opcode = s.read s.pc := opcode_decodeBytes _ _ _

end Sys2Proof.Machine
end

section
/-! ## Frames: what an instruction leaves as it was

Each view of the state is followed through an `Effect`, then through `exec`; the statements read their clauses off. -/

namespace Sys2Proof.Machine

open Sys2Proof Sys2Proof.Claims

variable {s t done : State} {i : Instr}

/-- The operations that move the stack pointer (20_memory.md R42). -/
def stackOperations : List Operation := [.push, .pop, .call, .ret]

@[simp] theorem errorState_run (kind : ErrorKind) (ir : Byte) (detail : Option Nat) (s : State) :
    (errorState kind ir detail s).run = .error := rfl

/-! ### Registers -/

theorem Effect.reg (h : Effect s i done) {r : Fin 8} (hsp : r = 7 → i.operation ∉ stackOperations)
    (hdest : ∀ a, destination? i = some a → r.val ≠ a.toNat) : done.reg r = s.reg r := by
  have hne {ra : Fin 8} {a : Byte} (ha : a.toNat = ra.val) (hd : destination? i = some a) : r ≠ ra :=
    fun e => hdest a hd (by rw [e, ha])
  cases h with
  | writesReg value hd ha => exact State.reg_setReg_ne s (hne ha hd) value
  | pushes v a value => exact State.reg_decSp_ne s fun e => hsp e (by simp [Instr.operation, stackOperations])
  | pops v value ha =>
    have hr : r ≠ Config.spIndex := fun e => hsp e (by simp [Instr.operation, stackOperations])
    rw [State.reg_incSp_ne _ hr, State.reg_setReg_ne s (hne ha rfl)]
  | prints | tests | compares | jeqFallsThrough | jneFallsThrough => rfl

/-- A register that is no stack pointer of a stack instruction and not the one named as destination is as before
(10_state.md R13). -/
theorem exec_reg (h : exec i s = .next t) {r : Fin 8} (hsp : r = 7 → i.operation ∉ stackOperations)
    (hdest : ∀ a, destination? i = some a → r.val ≠ a.toNat) : t.reg r = s.reg r := by
  obtain hcommits | ⟨kind, detail, -, rfl⟩ := exec_cases h
  · cases hcommits with
    | advances _ heffect _ => exact heffect.reg hsp hdest
    | calls => exact State.reg_decSp_ne s fun e => hsp e (by simp [Instr.operation, stackOperations])
    | returns => exact State.reg_incSp_ne _ fun e => hsp e (by simp [Instr.operation, stackOperations])
    | halts | jumps => rfl
  · rfl

/-! ### Memory -/

theorem Effect.mem (h : Effect s i done) :
    done.mem = s.mem ∨ i.operation = .push ∧ ∃ value, done.mem = s.mem.write s.decSp.sp.toNat value := by
  cases h with
  | pushes v a value => exact .inr ⟨rfl, value, rfl⟩
  | writesReg | prints | tests | compares | pops | jeqFallsThrough | jneFallsThrough => exact .inl rfl

/-- Memory is as before, or PUSH or CALL has written the byte at the decremented stack pointer (20_memory.md R42). -/
theorem exec_mem (h : exec i s = .next t) :
    t.mem = s.mem ∨ i.operation ∈ [.push, .call] ∧ ∃ value, t.mem = s.mem.write s.decSp.sp.toNat value := by
  obtain hcommits | ⟨kind, detail, -, rfl⟩ := exec_cases h
  · cases hcommits with
    | advances _ heffect _ => exact heffect.mem.imp_right fun ⟨hpush, hwrite⟩ => ⟨by simp [hpush], hwrite⟩
    | calls v a ret target => exact .inr ⟨by simp [Instr.operation], ret, rfl⟩
    | halts | returns | jumps => exact .inl rfl
  · exact .inl rfl

theorem exec_read_of_not_mem (h : exec i s = .next t) (hop : i.operation ∉ [.push, .call]) (addr : Byte) :
    t.read addr = s.read addr := by
  obtain hmem | ⟨hop', -⟩ := exec_mem h
  · simp [State.read, hmem]
  · exact absurd hop' hop

theorem exec_read_of_ne (h : exec i s = .next t) {addr : Byte} (haddr : addr ≠ s.decSp.sp) :
    t.read addr = s.read addr := by
  obtain hmem | ⟨-, value, hmem⟩ := exec_mem h
  · simp [State.read, hmem]
  · calc t.read addr = (s.write s.decSp.sp value).read addr := by simp only [State.read, hmem, State.write_mem]
      _ = s.read addr := State.read_write_ne s haddr value

theorem exec_wf (h : exec i s = .next t) (hwf : s.mem.wf = true) : t.mem.wf = true := by
  obtain hmem | ⟨-, value, hmem⟩ := exec_mem h
  · rwa [hmem]
  · rw [hmem]; exact State.wf_write hwf s.decSp.sp value

/-! ### Flags -/

theorem Effect.fl (h : Effect s i done) : done.fl = s.fl ∨ i.operation = .cmp ∧ done.fl ∈ oneHotFlags := by
  cases h with
  | compares v c a b hf => exact .inr ⟨rfl, hf⟩
  | writesReg | prints | tests | pushes | pops | jeqFallsThrough | jneFallsThrough => exact .inl rfl

/-- The flags are as before, or CMP has set one of them (10_state.md R18, R19). -/
theorem exec_fl (h : exec i s = .next t) : t.fl = s.fl ∨ i.operation = .cmp ∧ t.fl ∈ oneHotFlags := by
  obtain hcommits | ⟨kind, detail, -, rfl⟩ := exec_cases h
  · cases hcommits with
    | advances _ heffect _ => exact heffect.fl
    | halts | calls | returns | jumps => exact .inl rfl
  · exact .inl rfl

theorem exec_fl_of_ne_cmp (h : exec i s = .next t) (hop : i.operation ≠ .cmp) : t.fl = s.fl :=
  (exec_fl h).resolve_right fun hcmp => hop hcmp.1

/-- The flags after a step are those before it, or exactly one is set. -/
theorem step_fl (h : step s = .next t) : t.fl = s.fl ∨ t.fl ∈ oneHotFlags := by
  obtain ⟨-, ⟨-, hexec⟩ | ⟨-, rfl⟩⟩ := step_cases h
  · exact (exec_fl hexec).imp_right And.right
  · exact .inl rfl

/-! ### Output -/

/-- The log has grown by at most the one event that PRINT or TST appends (10_state.md R23). -/
abbrev AppendsAtMostOne (i : Instr) (s t : State) : Prop :=
  t.out = s.out ∨ (i.operation = .print ∧ ∃ n, t.out = s.out ++ [.print n]) ∨
    (i.operation = .tst ∧ ∃ p, t.out = s.out ++ [.tst p])

theorem Effect.out (h : Effect s i done) : AppendsAtMostOne i s done := by
  cases h with
  | prints v a n => exact .inr (.inl ⟨rfl, n, rfl⟩)
  | tests v c a b pass => exact .inr (.inr ⟨rfl, pass, rfl⟩)
  | writesReg | compares | pushes | pops | jeqFallsThrough | jneFallsThrough => exact .inl rfl

theorem exec_out (h : exec i s = .next t) : AppendsAtMostOne i s t := by
  obtain hcommits | ⟨kind, detail, -, rfl⟩ := exec_cases h
  · cases hcommits with
    | advances _ heffect _ => exact heffect.out
    | halts | calls | returns | jumps => exact .inl rfl
  · exact .inl rfl

theorem exec_out_of_ne (h : exec i s = .next t) (hprint : i.operation ≠ .print) (htst : i.operation ≠ .tst) :
    t.out = s.out := by
  obtain hout | ⟨hop, -⟩ | ⟨hop, -⟩ := exec_out h
  · exact hout
  · exact absurd hop hprint
  · exact absurd hop htst

/-! ### Run state and error record -/

theorem Effect.run_err (h : Effect s i done) : done.run = s.run ∧ done.err = s.err := by
  cases h <;> exact ⟨rfl, rfl⟩

theorem Commits.run_err (h : Commits s i t) :
    t.run = s.run ∧ t.err = s.err ∨ i.operation = .halt ∧ t = s.halt := by
  cases h with
  | halts v => exact .inr ⟨rfl, rfl⟩
  | advances _ heffect _ => exact .inl heffect.run_err
  | calls | returns | jumps => exact .inl ⟨rfl, rfl⟩

/-- `run` and `err` are as before, or the instruction raised, or it is HALT (41_primary.md R70). -/
theorem exec_run_err (h : exec i s = .next t) :
    KeepsRunOrRaises s t ∨ i.operation = .halt ∧ t = s.halt := by
  obtain hcommits | ⟨kind, detail, -, rfl⟩ := exec_cases h
  · exact hcommits.run_err.imp_left .inl
  · exact .inl (.inr rfl)

theorem exec_keepsRunOrRaises (h : exec i s = .next t) (hop : i.operation ≠ .halt) : KeepsRunOrRaises s t :=
  (exec_run_err h).resolve_right fun hhalt => hop hhalt.1

theorem eq_halt_of_operation (h : i.operation = .halt) : ∃ v, i = .halt v := by
  cases i with
  | halt v => exact ⟨v, rfl⟩
  | _ => cases h

theorem eq_cmp_of_operation (h : i.operation = .cmp) : ∃ v c a b, i = .cmp v c a b := by
  cases i with
  | cmp v c a b => exact ⟨v, c, a, b, rfl⟩
  | _ => cases h

theorem exec_of_operation_halt (h : i.operation = .halt) (s : State) : exec i s = .next s.halt := by
  obtain ⟨v, rfl⟩ := eq_halt_of_operation h
  rfl

end Sys2Proof.Machine
end

section
/-! ## The invariant, condition by condition -/

namespace Sys2Proof.Machine

open Sys2Proof Sys2Proof.Claims

variable {s t : State}

theorem step_wf (h : step s = .next t) (hwf : s.mem.wf = true) : t.mem.wf = true := by
  obtain ⟨-, ⟨-, hexec⟩ | ⟨-, rfl⟩⟩ := step_cases h
  · exact exec_wf hexec hwf
  · exact hwf

theorem flagsLegal_of_oneHot (h : s.fl ∈ oneHotFlags) : s.FlagsLegal := .inr (by simpa [oneHotFlags] using h)

theorem step_flagsLegal (h : step s = .next t) (hflags : s.FlagsLegal) : t.FlagsLegal := by
  obtain hsame | honeHot := step_fl h
  · simpa [State.FlagsLegal, hsame] using hflags
  · exact flagsLegal_of_oneHot honeHot

theorem errorLegal_of_no_record (herr : s.err = none) (hrun : s.run ≠ .error) : s.ErrorLegal := by
  simpa [State.ErrorLegal, herr] using hrun

theorem err_eq_none_of_errorLegal (h : s.ErrorLegal) (hrun : s.run ≠ .error) : s.err = none := by
  cases herr : s.err with
  | none => rfl
  | some e =>
    simp only [State.ErrorLegal, herr] at h
    exact absurd h.1 hrun

theorem errorLegal_errorState {kind : ErrorKind} {ir : Byte} {detail : Option Nat} (hir : ir = s.read s.pc)
    (hdetail : ({ kind := kind, opcode := ir, pc := s.pc, detail := detail } : ErrorRecord).DetailLegal) :
    (errorState kind ir detail s).ErrorLegal :=
  ⟨rfl, rfl, hir, hdetail⟩

/-- A completed instruction leaves no error record where there was none. -/
theorem Commits.errorLegal {i : Instr} (h : Commits s i t) (herr : s.err = none) (hrun : s.run = .running) :
    t.ErrorLegal := by
  obtain ⟨hrun', herr'⟩ | ⟨-, rfl⟩ := h.run_err
  · exact errorLegal_of_no_record (herr'.trans herr) (by simp [hrun', hrun])
  · exact errorLegal_of_no_record herr (by simp)

theorem step_errorLegal (h : step s = .next t) (hlegal : s.ErrorLegal) : t.ErrorLegal := by
  obtain ⟨hrun, ⟨-, hexec⟩ | ⟨-, rfl⟩⟩ := step_cases h
  · obtain hcommits | ⟨kind, detail, hdetail, rfl⟩ := exec_cases hexec
    · exact hcommits.errorLegal (err_eq_none_of_errorLegal hlegal (by simp [hrun])) hrun
    · exact errorLegal_errorState (opcode_fetchInstr s) hdetail
  · exact errorLegal_errorState rfl (by simp [ErrorRecord.DetailLegal])

/-- A step that ends in HALTED has run a HALT, and changed nothing but `run` (41_primary.md R70). -/
theorem step_halted (h : step s = .next t) (hhalted : t.run = .halted) :
    s.pc.toNat ≤ 253 ∧ (fetchInstr s).operation = .halt ∧ t = s.halt := by
  obtain ⟨hrun, ⟨hpc, hexec⟩ | ⟨-, rfl⟩⟩ := step_cases h
  · obtain (⟨hkeeps, -⟩ | hraises) | ⟨hop, ht⟩ := exec_run_err hexec
    · simp [hkeeps, hrun] at hhalted
    · simp [hraises] at hhalted
    · exact ⟨hpc, hop, ht⟩
  · simp at hhalted

theorem step_haltLegal (h : step s = .next t) : t.HaltLegal := by
  intro hhalted
  obtain ⟨hpc, hop, rfl⟩ := step_halted h hhalted
  exact ⟨fetchInRange_iff.mpr hpc, hop⟩

/-- Settles O40: each condition of the invariant is kept by itself, `HaltLegal` from every state. -/
theorem everyStepKeepsTheInvariant : Obligations.EveryStepKeepsTheInvariant := by
  intro s t hinv h
  exact {
    memory := step_wf h hinv.memory
    flags := step_flagsLegal h hinv.flags
    error := step_errorLegal h hinv.error
    halt := step_haltLegal h }

/-- Settles O41: the flags are 0, there is no record, and the machine runs. -/
theorem resetMeetsTheInvariant : Obligations.ResetMeetsTheInvariant where
  memory := reset_memory_wf
  flags := .inl rfl
  error := errorLegal_of_no_record rfl (by decide)
  halt := fun hhalted => absurd hhalted (by decide)

/-- Settles O42: a CMP that completes sets one flag, and a step keeps the flags or sets one. -/
theorem flagsStayOneHotAfterACompare : Obligations.FlagsStayOneHotAfterACompare := by
  refine ⟨fun v c a b s t h hrun => ?_, fun s t hflags h => ?_⟩
  · obtain hcommits | ⟨kind, detail, -, rfl⟩ := exec_cases h
    · cases hcommits with
      | advances _ heffect _ =>
        cases heffect with
        | compares _ _ _ _ hf => exact hf
        | writesReg _ hdest _ => cases hdest
      | jumps _ hjump => simp [Instr.operation] at hjump
    · exact absurd rfl hrun
  · obtain hsame | honeHot := step_fl h
    · rwa [hsame]
    · exact honeHot

end Sys2Proof.Machine
end

section
/-! ## The frames of the four groups of instructions, and what a step does to output, run state and `pc` -/

namespace Sys2Proof.Machine

open Sys2Proof Sys2Proof.Claims

/-- Settles O29: the named register is the destination, and no other part of the state is one of these operations'. -/
theorem registerInstructionsChangeOnlyTheirRegister : Obligations.RegisterInstructionsChangeOnlyTheirRegister := by
  intro v c a b s t i hi h
  have hdest : destination? i = some a := by
    revert i; simp [destination?]
  have hop : i.operation ∉ [.push, .pop, .call, .ret, .cmp, .print, .tst, .halt] := by
    clear h hdest; revert i; simp [Instr.operation]
  simp only [List.mem_cons, List.not_mem_nil, or_false, not_or] at hop
  obtain ⟨hpush, hpop, hcall, hret, hcmp, hprint, htst, hhalt⟩ := hop
  refine ⟨fun r hr => exec_reg h (fun _ => by simp [stackOperations, *]) ?_, exec_fl_of_ne_cmp h hcmp,
    exec_read_of_not_mem h (by simp [*]), exec_out_of_ne h hprint htst, exec_keepsRunOrRaises h hhalt⟩
  intro a' ha'
  obtain rfl : a = a' := by simpa [hdest] using ha'
  exact hr

/-- Settles O30: these instructions name no destination and are no stack instructions. -/
theorem otherInstructionsChangeNoRegisterOrMemory : Obligations.OtherInstructionsChangeNoRegisterOrMemory := by
  intro v c a b low code s t i hi h
  have hdest : destination? i = none := by
    revert i; simp [destination?]
  have hop : i.operation ∉ stackOperations := by
    clear h hdest; revert i; simp [Instr.operation, stackOperations]
  refine ⟨fun r => exec_reg h (fun _ => hop) (by simp [hdest]), exec_read_of_not_mem h ?_, exec_fl_of_ne_cmp h,
    exec_out_of_ne h, (exec_run_err h).imp_right ?_⟩
  · simp_all [stackOperations]
  · rintro ⟨hhalt, rfl⟩
    exact ⟨hhalt, rfl, rfl⟩

/-- Settles O31: neither names a destination, and the one byte written is at the decremented stack pointer. -/
theorem pushAndCallChangeOneByteAndTheStackPointer : Obligations.PushAndCallChangeOneByteAndTheStackPointer := by
  intro v a s t i hi h
  have hdest : destination? i = none := by
    revert i; simp [destination?]
  have hop : i.operation = .push ∨ i.operation = .call := by
    clear h hdest; revert i; simp [Instr.operation]
  refine ⟨fun r hr => exec_reg h (fun e => absurd e hr) (by simp [hdest]), fun addr => exec_read_of_ne h,
    exec_fl_of_ne_cmp h ?_, exec_out_of_ne h ?_ ?_, exec_keepsRunOrRaises h ?_⟩
  all_goals rcases hop with hop | hop <;> simp [hop]

/-- Settles O32: only POP names a destination, and neither writes memory. -/
theorem popAndRetChangeNoMemory : Obligations.PopAndRetChangeNoMemory := by
  intro v a s t i hi h
  have hdest : ∀ a', destination? i = some a' → i.operation = .pop ∧ a' = a := by
    revert i; simp [destination?, Instr.operation, eq_comm]
  have hop : i.operation = .pop ∨ i.operation = .ret := by
    clear h hdest; revert i; simp [Instr.operation]
  refine ⟨fun r hr hra => exec_reg h (fun e => absurd e hr) ?_, exec_read_of_not_mem h ?_,
    exec_fl_of_ne_cmp h ?_, exec_out_of_ne h ?_ ?_, exec_keepsRunOrRaises h ?_⟩
  · intro a' ha'
    obtain ⟨hpop, rfl⟩ := hdest a' ha'
    exact hra hpop
  all_goals rcases hop with hop | hop <;> simp [hop]

/-- Settles O35: a fetch out of range appends nothing, and an instruction at most one event. -/
theorem outputIsOnlyAppendedTo : Obligations.OutputIsOnlyAppendedTo := by
  intro s t h
  obtain ⟨-, ⟨-, hexec⟩ | ⟨-, rfl⟩⟩ := step_cases h
  · exact exec_out hexec
  · exact .inl rfl

/-- Settles O38: a step that ends in HALTED ran a HALT, and a HALT that is fetched in range halts. -/
theorem onlyHaltHalts : Obligations.OnlyHaltHalts := by
  intro s t h
  obtain ⟨hrun, hcases⟩ := step_cases h
  refine ⟨hrun, fun hhalted => ?_, fun ⟨hpc, hop⟩ => ?_⟩
  · obtain ⟨hpc, hop, -⟩ := step_halted h hhalted
    exact ⟨hpc, hop⟩
  · obtain ⟨-, hexec⟩ | ⟨hlarge, -⟩ := hcases
    · rw [exec_of_operation_halt hop] at hexec
      cases hexec
      rfl
    · omega

/-- An instruction that completes and is no HALT, CALL, RET or jump has advanced `pc` by its length, without wrapping
(10_state.md R15, R16). -/
theorem Commits.pc_of_sequential {i : Instr} {s t : State} (h : Commits s i t)
    (hop : i.operation ∉ [.halt, .call, .ret, .jmp, .jeq, .jne]) :
    ∃ v, operandCount? (fieldCount i.opcode) = some v ∧ t.pc.toNat = s.pc.toNat + v.length := by
  cases h with
  | @advances _ v _ hcount _ hnext => exact ⟨v, hcount, Nat.mod_eq_of_lt (by omega)⟩
  | jumps target hjump =>
    simp only [List.mem_cons, List.not_mem_nil, or_false] at hjump
    rcases hjump with hjump | hjump | hjump <;> simp [hjump] at hop
  | halts | calls | returns => simp [Instr.operation] at hop

/-- Settles O39: the operand count of the opcode byte at `pc` tells the length. -/
theorem sequentialInstructionsAdvanceByTheirLength : Obligations.SequentialInstructionsAdvanceByTheirLength := by
  intro s t h hrun hop
  obtain ⟨-, ⟨-, hexec⟩ | ⟨-, rfl⟩⟩ := step_cases h
  · obtain hcommits | ⟨kind, detail, -, rfl⟩ := exec_cases hexec
    · obtain ⟨v, hcount, hpc⟩ := hcommits.pc_of_sequential hop
      rw [opcode_fetchInstr] at hcount
      have hlength := length_of_operandCount? hcount
      have hle := length_le_three v
      omega
    · exact absurd rfl hrun
  · exact absurd rfl hrun

end Sys2Proof.Machine
end

section
/-! ## The flags play no part but in CMP, JEQ and JNE (10_state.md R18)

Said of each shared operation: setting the flags before it is the same as setting them after it. The two operations
that may raise are followed through any change `g` of the state that keeps `pc` and that an error commutes with. -/

namespace Sys2Proof.Machine

open Sys2Proof Sys2Proof.Claims

/-- An outcome with its next state changed. -/
def mapNext (g : State → State) : Result → Result
  | .next t => .next (g t)
  | .fault r => .fault r
  | .refused r => .refused r

@[simp] theorem mapNext_next (g : State → State) (t : State) : mapNext g (.next t) = .next (g t) := rfl

theorem withReg_mapNext {g : State → State} {ir a : Byte} {s s' : State} {k k' : Fin 8 → Result}
    (herror : ∀ kind ir detail, errorState kind ir detail s' = g (errorState kind ir detail s))
    (h : ∀ ra, k' ra = mapNext g (k ra)) : withReg ir a s' k' = mapNext g (withReg ir a s k) := by
  unfold withReg
  cases regIndex? a with
  | some ra => exact h ra
  | none => simp only [raise_eq, mapNext_next, herror]

theorem withNext_mapNext {g : State → State} {ir : Byte} {v : OperandCount} {s s' : State} {k k' : Byte → Result}
    (hpc : s'.pc = s.pc) (herror : ∀ kind ir detail, errorState kind ir detail s' = g (errorState kind ir detail s))
    (h : ∀ next, k' next = mapNext g (k next)) : withNext ir v s' k' = mapNext g (withNext ir v s k) := by
  by_cases hnext : s.pc.toNat + v.length ≤ 255
  · rw [withNext_of_le hnext, withNext_of_le (by rwa [hpc]), hpc]
    exact h _
  · rw [withNext_of_gt (s := s) (by omega), withNext_of_gt (s := s') (by rw [hpc]; omega), herror, mapNext_next]

theorem withReg_setFlags {ir a : Byte} {s : State} {f : BitVec 3} {k k' : Fin 8 → Result}
    (h : ∀ ra, k' ra = mapNext (·.setFlags f) (k ra)) :
    withReg ir a (s.setFlags f) k' = mapNext (·.setFlags f) (withReg ir a s k) :=
  withReg_mapNext (fun _ _ _ => rfl) h

theorem advance_setFlags (ir : Byte) (v : OperandCount) (s done : State) (f : BitVec 3) :
    advance ir v (s.setFlags f) (done.setFlags f) = mapNext (·.setFlags f) (advance ir v s done) :=
  withNext_mapNext rfl (fun _ _ _ => rfl) fun _ => rfl

theorem commitAlu_setFlags (ir : Byte) (v : OperandCount) (ra : Fin 8) (s : State) (f : BitVec 3) {answer : AluAnswer}
    (h : answer.ValueOrDivision) :
    commitAlu ir v ra (s.setFlags f) answer = mapNext (·.setFlags f) (commitAlu ir v ra s answer) := by
  obtain ⟨value, rfl⟩ | rfl := h
  · exact advance_setFlags ir v s (s.setReg ra value) f
  · rfl

theorem aluTwo_setFlags {op : Byte → Byte → AluAnswer} (hop : ∀ va vb, (op va vb).ValueOrDivision) (ir : Byte)
    (v : OperandCount) (a b : Byte) (s : State) (f : BitVec 3) :
    aluTwo op ir v a b (s.setFlags f) = mapNext (·.setFlags f) (aluTwo op ir v a b s) :=
  withReg_setFlags fun _ => withReg_setFlags fun _ => commitAlu_setFlags _ _ _ _ _ (hop _ _)

theorem aluOne_setFlags {op : Byte → AluAnswer} (hop : ∀ va, (op va).ValueOrDivision) (ir : Byte)
    (v : OperandCount) (a : Byte) (s : State) (f : BitVec 3) :
    aluOne op ir v a (s.setFlags f) = mapNext (·.setFlags f) (aluOne op ir v a s) :=
  withReg_setFlags fun _ => commitAlu_setFlags _ _ _ _ _ (hop _)

theorem execJeq_setFlags (v : OperandCount) (a : Byte) {s : State} {f : BitVec 3}
    (hE : (s.setFlags f).flagE = s.flagE) :
    execJeq v a (s.setFlags f) = mapNext (·.setFlags f) (execJeq v a s) :=
  withReg_setFlags fun ra => by
    rw [hE]
    split
    · rfl
    · exact advance_setFlags _ v s s f

theorem execJne_setFlags (v : OperandCount) (a : Byte) {s : State} {f : BitVec 3}
    (hE : (s.setFlags f).flagE = s.flagE) :
    execJne v a (s.setFlags f) = mapNext (·.setFlags f) (execJne v a s) :=
  withReg_setFlags fun ra => by
    rw [hE]
    split
    · exact advance_setFlags _ v s s f
    · rfl

/-- Every instruction but CMP carries the flags through; JEQ and JNE when the equal bit is the same. -/
theorem exec_setFlags {i : Instr} {s : State} {f : BitVec 3} (hcmp : i.operation ≠ .cmp)
    (hE : i.operation = .jeq ∨ i.operation = .jne → (s.setFlags f).flagE = s.flagE) :
    exec i (s.setFlags f) = mapNext (·.setFlags f) (exec i s) := by
  cases i with
  | cmp v c a b => exact absurd rfl hcmp
  | jeq v a => exact execJeq_setFlags v a (hE (.inl rfl))
  | jne v a => exact execJne_setFlags v a (hE (.inr rfl))
  | loadImmediate v a imm => exact withReg_setFlags fun ra => advance_setFlags _ v s (s.setReg ra imm) f
  | push v a => exact withReg_setFlags fun ra => advance_setFlags _ v s (s.decSp.write s.decSp.sp (s.decSp.reg ra)) f
  | pop v a => exact withReg_setFlags fun ra => advance_setFlags _ v s (s.setReg ra (s.read s.sp)).incSp f
  | print v a => exact withReg_setFlags fun ra => advance_setFlags _ v s (s.emit (.print (s.reg ra))) f
  | tst v c a b =>
    exact withReg_setFlags fun ra => withReg_setFlags fun rb => advance_setFlags _ v s (s.emit (.tst _)) f
  | div v c a b => exact aluTwo_setFlags aluDiv_valueOrDivision _ v a b s f
  | mod v c a b => exact aluTwo_setFlags aluMod_valueOrDivision _ v a b s f
  | add v c a b | sub v c a b | mul v c a b | and v c a b | or v c a b | xor v c a b | shl v c a b | shr v c a b =>
    exact aluTwo_setFlags (by intros; exact .inl ⟨_, rfl⟩) _ v a b s f
  | inc v c a | dec v c a | not v c a => exact aluOne_setFlags (by intros; exact .inl ⟨_, rfl⟩) _ v a s f
  | call v a => exact withReg_setFlags fun _ => withNext_mapNext rfl (fun _ _ _ => rfl) fun _ => rfl
  | jmp v a => exact withReg_setFlags fun _ => rfl
  | halt | ret | illegalCount | illegalAlu | illegalControl | illegalPrimary => rfl

/-- What CMP keeps of flags put in before it: those it has when it raises, none when it completes (42_alu.md R88). -/
def keepFlagsOnError (f : BitVec 3) (t : State) : State := { t with fl := if t.run ≠ .error then t.fl else f }

theorem advance_keepFlagsOnError (ir : Byte) (v : OperandCount) {s : State} (hrun : s.run = .running) (f g : BitVec 3) :
    advance ir v (s.setFlags f) ((s.setFlags f).setFlags g) =
      mapNext (keepFlagsOnError f) (advance ir v s (s.setFlags g)) :=
  withNext_mapNext rfl (fun _ _ _ => rfl) fun next => by
    simp [keepFlagsOnError, hrun, State.setFlags, State.setPc]

theorem exec_cmp_setFlags (v : OperandCount) (c : Bool) (a b : Byte) {s : State} (hrun : s.run = .running)
    (f : BitVec 3) :
    exec (.cmp v c a b) (s.setFlags f) = mapNext (keepFlagsOnError f) (exec (.cmp v c a b) s) :=
  withReg_mapNext (fun _ _ _ => rfl) fun _ => withReg_mapNext (fun _ _ _ => rfl) fun _ =>
    advance_keepFlagsOnError _ v hrun f _

/-- Settles O33: CMP overwrites the flags put in unless it raises, every other instruction carries them through. -/
theorem onlyCmpWritesAndOnlyBranchesReadFlags : Obligations.OnlyCmpWritesAndOnlyBranchesReadFlags := by
  intro i s t f hrun h
  refine ⟨exec_fl_of_ne_cmp h, fun hread => ?_⟩
  change exec i (s.setFlags f) = _
  by_cases hcmp : i.operation = .cmp
  · obtain ⟨v, c, a, b, rfl⟩ := eq_cmp_of_operation hcmp
    rw [exec_cmp_setFlags v c a b hrun f, h]
    simp [keepFlagsOnError, Instr.operation]
  · have hE (hbranch : i.operation = .jeq ∨ i.operation = .jne) : (s.setFlags f).flagE = s.flagE :=
      hread.resolve_left fun ⟨hjeq, hjne⟩ => hbranch.elim hjeq hjne
    rw [exec_setFlags hcmp hE, h]
    simp [hcmp, State.setFlags]

end Sys2Proof.Machine
end

section
/-! ## Register writes, reset values, the printed line -/

namespace Sys2Proof.Machine

open Sys2Proof Sys2Proof.Claims

/-- What a register keeps of an exact result is its non-negative remainder modulo 256 (10_state.md R11, D1). -/
theorem toNat_narrow (n : Int) : ((narrow n).toNat : Int) = n % 256 := by
  simp [narrow, Int.toNat_of_nonneg (Int.emod_nonneg n (by decide : (256 : Int) ≠ 0))]

/-- Settles O50: the register named reads what `narrow` keeps, the others what they held. -/
theorem registerWritesReduceModulo256 : Obligations.RegisterWritesReduceModulo256 := by
  intro s i j n
  rw [State.reg_setReg]
  split
  · exact toNat_narrow n
  · rfl

/-- Settles O51: memory is empty, and an address nothing has written reads 0. -/
theorem resetLeavesTheStatedValues : Obligations.ResetLeavesTheStatedValues :=
  ⟨by decide, rfl, rfl, fun _ => rfl, rfl, rfl, rfl⟩

theorem digitChar_eq {d : Nat} (hd : d < 10) : digitChar d = Nat.digitChar d := by
  revert d; decide

/-- Settles O54: one, two or three digits, each by the recursion of the library's numeral. -/
theorem printLineIsTheDecimalNumeral : Obligations.PrintLineIsTheDecimalNumeral := by
  intro n
  have hlt := n.isLt
  suffices hdigits : decimalText n = Nat.toDigits 10 n.toNat by rw [← hdigits]; rfl
  unfold decimalText
  split
  · rw [Nat.toDigits_of_lt_base ‹_›, digitChar_eq ‹_›]
  · rw [Nat.toDigits_of_base_le (by decide) (by omega), digitChar_eq (d := n.toNat % 10) (by omega)]
    split
    · rw [Nat.toDigits_of_lt_base (by omega), digitChar_eq (by omega)]
      rfl
    · rw [Nat.toDigits_of_base_le (by decide) (by omega), Nat.toDigits_of_lt_base (by omega),
        digitChar_eq (by omega), digitChar_eq (by omega), Nat.div_div_eq_div_mul]
      rfl

end Sys2Proof.Machine
end

section
/-! ## Memory plays no part but in the fetch and in PUSH, POP, CALL and RET (20_memory.md R30, R40, R42)

Putting another memory in is followed through the operations that may raise by the lemmas that follow a change of the
flags, `withReg_mapNext` and `withNext_mapNext`. -/

namespace Sys2Proof.Machine

open Sys2Proof Sys2Proof.Claims

/-- The state with another memory in it. -/
def State.setMem (s : State) (m : Memory) : State := { s with mem := m }

variable (s done : State) (m : Memory) (ir : Byte) (v : OperandCount)

theorem State.read_setMem (addr : Byte) : (s.setMem m).read addr = m.read addr.toNat := rfl

variable {s} in
theorem withReg_setMem {a : Byte} {k k' : Fin 8 → Result} (h : ∀ ra, k' ra = mapNext (·.setMem m) (k ra)) :
    withReg ir a (s.setMem m) k' = mapNext (·.setMem m) (withReg ir a s k) :=
  withReg_mapNext (fun _ _ _ => rfl) h

theorem advance_setMem : advance ir v (s.setMem m) (done.setMem m) = mapNext (·.setMem m) (advance ir v s done) :=
  withNext_mapNext rfl (fun _ _ _ => rfl) fun _ => rfl

theorem commitAlu_setMem (ra : Fin 8) (answer : AluAnswer) :
    commitAlu ir v ra (s.setMem m) answer = mapNext (·.setMem m) (commitAlu ir v ra s answer) := by
  cases answer with
  | result value => exact advance_setMem s (s.setReg ra value) m ir v
  | flags f => exact advance_setMem s (s.setFlags f) m ir v
  | observe pass => exact advance_setMem s (s.emit (.tst pass)) m ir v
  | divisionByZero | unsupported => rfl

theorem aluTwo_setMem (op : Byte → Byte → AluAnswer) (a b : Byte) :
    aluTwo op ir v a b (s.setMem m) = mapNext (·.setMem m) (aluTwo op ir v a b s) :=
  withReg_setMem m ir fun ra => withReg_setMem m ir fun _ => commitAlu_setMem s m ir v ra _

theorem aluOne_setMem (op : Byte → AluAnswer) (a : Byte) :
    aluOne op ir v a (s.setMem m) = mapNext (·.setMem m) (aluOne op ir v a s) :=
  withReg_setMem m ir fun ra => commitAlu_setMem s m ir v ra _

/-- POP reads memory at the stack pointer only. -/
theorem execPop_setMem (a : Byte) (hsp : m.read s.sp.toNat = s.read s.sp) :
    execPop v a (s.setMem m) = mapNext (·.setMem m) (execPop v a s) :=
  withReg_setMem m _ fun ra => by
    have hread : (s.setMem m).read (s.setMem m).sp = s.read s.sp := hsp
    rw [hread]
    exact advance_setMem s (s.setReg ra (s.read s.sp)).incSp m _ v

/-- RET reads memory at the stack pointer only. -/
theorem execRet_setMem (hsp : m.read s.sp.toNat = s.read s.sp) :
    execRet v (s.setMem m) = mapNext (·.setMem m) (execRet v s) := by
  have hread : (s.setMem m).read (s.setMem m).sp = s.read s.sp := hsp
  rw [execRet, hread]
  rfl

theorem execJeq_setMem (a : Byte) : execJeq v a (s.setMem m) = mapNext (·.setMem m) (execJeq v a s) :=
  withReg_setMem m _ fun ra => by
    change (if s.flagE then _ else _) = _
    split
    · rfl
    · exact advance_setMem s s m _ v

theorem execJne_setMem (a : Byte) : execJne v a (s.setMem m) = mapNext (·.setMem m) (execJne v a s) :=
  withReg_setMem m _ fun ra => by
    change (if s.flagE then _ else _) = _
    split
    · exact advance_setMem s s m _ v
    · rfl

/-- Every instruction but PUSH and CALL carries another memory through; POP and RET when it holds the same byte at the
stack pointer. -/
theorem exec_setMem {i : Instr} (hop : i.operation ∉ [.push, .call])
    (hsp : i.operation ∈ [.pop, .ret] → m.read s.sp.toNat = s.read s.sp) :
    exec i (s.setMem m) = mapNext (·.setMem m) (exec i s) := by
  cases i with
  | push | call => simp [Instr.operation] at hop
  | pop v a => exact execPop_setMem s m v a (hsp (by simp [Instr.operation]))
  | ret v => exact execRet_setMem s m v (hsp (by simp [Instr.operation]))
  | jeq v a => exact execJeq_setMem s m v a
  | jne v a => exact execJne_setMem s m v a
  | jmp v a => exact withReg_setMem m _ fun _ => rfl
  | loadImmediate v a imm => exact withReg_setMem m _ fun ra => advance_setMem s (s.setReg ra imm) m _ v
  | print v a => exact withReg_setMem m _ fun ra => advance_setMem s (s.emit (.print (s.reg ra))) m _ v
  | add v c a b | sub v c a b | mul v c a b | div v c a b | mod v c a b | cmp v c a b | and v c a b | or v c a b
  | xor v c a b | shl v c a b | shr v c a b | tst v c a b => exact aluTwo_setMem s m _ v _ a b
  | inc v c a | dec v c a | not v c a => exact aluOne_setMem s m _ v _ a
  | halt | illegalCount | illegalAlu | illegalControl | illegalPrimary => rfl

/-- Settles O34: the memory put in before the instruction is carried through it. -/
theorem onlyStackInstructionsTouchMemory : Obligations.OnlyStackInstructionsTouchMemory := by
  intro i s t m h hop hsp
  change exec i (s.setMem m) = _
  rw [exec_setMem s m hop hsp, h]
  rfl

variable {s v}

/-- A running machine whose fetch is in range runs the instruction it fetches (40_fetch_decode_dispatch.md R60). -/
theorem step_of_inRange (hrun : s.run = .running) (hpc : s.pc.toNat ≤ 253) : step s = exec (fetchInstr s) s := by
  simp [step, hrun, fetchInRange_iff.mpr hpc]

/-- A PUSH that does not raise has stored the register's value, read after the decrement, at the decremented stack
pointer (41_primary.md R73). -/
theorem push_commits {a : Byte} {ra : Fin 8} {t : State} (ha : a.toNat = ra.val) (h : exec (.push v a) s = .next t)
    (hrun : t.run ≠ .error) :
    t = (s.decSp.write s.decSp.sp (s.decSp.reg ra)).setPc (BitVec.ofNat 8 (s.pc.toNat + v.length)) := by
  have hadvance : exec (.push v a) s =
      advance (Instr.push v a).opcode v s (s.decSp.write s.decSp.sp (s.decSp.reg ra)) := withReg_of_index ha
  have hcases := advance_cases (Instr.push v a).opcode v s (s.decSp.write s.decSp.sp (s.decSp.reg ra))
  rw [← hadvance, h] at hcases
  obtain ⟨-, heq⟩ | ⟨-, heq⟩ := hcases
  · exact Host.Outcome.next.inj heq
  · cases heq
    exact absurd rfl hrun

/-- The byte at the address a PUSH stored to is the value of the register pushed. -/
theorem read_sp_of_push {a : Byte} {ra : Fin 8} {t : State} (ha : a.toNat = ra.val) (h : exec (.push v a) s = .next t)
    (hrun : t.run ≠ .error) : t.read (s.sp - 1) = t.reg ra := by
  rw [push_commits ha h hrun, ← State.sp_decSp, State.read_setPc, State.read_write_same, State.reg_setPc,
    State.reg_write]

/-- Settles O47: the fetch reads the byte the PUSH stored, at the address it stored it to. -/
theorem pushedByteIsFetchedNext : Obligations.PushedByteIsFetchedNext := by
  intro v a ra s t ha h hrun hpc hsp
  have hpushed : t.read t.pc = t.x[ra] := by
    rw [hsp]
    exact read_sp_of_push ha h (by simp [hrun])
  rw [step_of_inRange hrun hpc, fetchInstr, hpushed]

/-- Settles O48: memory is empty after reset, and a write is seen at its own address only. -/
theorem memoryReadsTheByteLastWritten : Obligations.MemoryReadsTheByteLastWritten := by
  refine ⟨fun _ => rfl, fun s addr addr' v => ?_⟩
  by_cases haddr : addr' = addr
  · rw [if_pos haddr, haddr, State.read_write_same]
  · rw [if_neg haddr, State.read_write_ne s haddr]

end Sys2Proof.Machine
end

section
/-! ## Encoding and decoding (30_encoding.md)

`decodeBytes_opcode` is the one round trip: an instruction is what its opcode byte decodes to with its operand bytes
behind it. What a table's answers have in common (`decodePrimary`, `decodeAlu`, `decodeControl`) is said once per table and
carried to every byte by `decodeBytes_forall`. -/

namespace Sys2Proof

open Sys2Proof.Claims

/-! ### `decodeBytes`, one equation per class of opcode byte (R46, R47) -/

theorem decodeBytes_of_alu {ir : Byte} {v : OperandCount} (hv : operandCount? (fieldCount ir) = some v)
    (hA : fieldAlu ir = true) (a b : Byte) :
    decodeBytes ir a b = decodeAlu v (fieldControl ir) (fieldCode ir) a b := by
  simp [decodeBytes, hv, classOf, hA]

theorem decodeBytes_of_control {ir : Byte} {v : OperandCount} (hv : operandCount? (fieldCount ir) = some v)
    (hA : fieldAlu ir = false) (hC : fieldControl ir = true) (a b : Byte) :
    decodeBytes ir a b = decodeControl v (fieldCode ir) a := by
  simp [decodeBytes, hv, classOf, hA, hC]

theorem decodeBytes_of_primary {ir : Byte} {v : OperandCount} (hv : operandCount? (fieldCount ir) = some v)
    (hA : fieldAlu ir = false) (hC : fieldControl ir = false) (a b : Byte) :
    decodeBytes ir a b = decodePrimary v (fieldCode ir) a b := by
  simp [decodeBytes, hv, classOf, hA, hC]

@[simp] theorem decodeBytes_aluByte (v : OperandCount) (c : Bool) (code : BitVec 4) (a b : Byte) :
    decodeBytes (aluByte v c code) a b = decodeAlu v c code a b := by
  rw [decodeBytes_of_alu (operandCount?_aluByte v c code) (by simp [aluByte])]
  simp [aluByte]

@[simp] theorem decodeBytes_controlByte (v : OperandCount) (code : BitVec 4) (a b : Byte) :
    decodeBytes (controlByte v code) a b = decodeControl v code a := by
  rw [decodeBytes_of_control (operandCount?_controlByte v code) (by simp [controlByte]) (by simp [controlByte])]
  simp [controlByte]

@[simp] theorem decodeBytes_primaryByte (v : OperandCount) (code : BitVec 4) (a b : Byte) :
    decodeBytes (primaryByte v code) a b = decodePrimary v code a b := by
  rw [decodeBytes_of_primary (operandCount?_primaryByte v code) (by simp [primaryByte]) (by simp [primaryByte])]
  simp [primaryByte]

/-- A byte with `v = 3` is illegal whatever its other bits (R53). -/
@[simp] theorem decodeBytes_countThree (low : BitVec 6) (a b : Byte) :
    decodeBytes (0b11#2 ++ low : BitVec 8) a b = .illegalCount low := by
  have hcount : operandCount? (fieldCount (0b11#2 ++ low : BitVec 8)) = none := by revert low; decide
  have hlow : (0b11#2 ++ low : BitVec 8).extractLsb' 0 6 = low := by revert low; decide
  simp [decodeBytes, hcount, hlow]

theorem decodePrimary_of_unlisted {code : BitVec 4} (h : code ∉ primaryCodes) (v : OperandCount) (a b : Byte) :
    decodePrimary v code a b = .illegalPrimary v code := by
  unfold decodePrimary
  split
  case h_6 => rfl
  all_goals exact absurd (by decide) h

theorem decodeControl_of_unlisted {code : BitVec 4} (h : code ∉ controlCodes) (v : OperandCount) (a : Byte) :
    decodeControl v code a = .illegalControl v code := by
  unfold decodeControl
  split
  case h_6 => rfl
  all_goals exact absurd (by decide) h

/-! ### The round trip (R45, R48, R52) -/

/-- The opcode byte of a well-formed instruction decodes to it whenever its operand bytes stand first behind it. -/
theorem decodeBytes_opcode {i : Instr} (hwf : i.wf = true) {a b : Byte} (h : i.operandBytes <+: [a, b]) :
    decodeBytes i.opcode a b = i := by
  cases i with
  | halt v => exact decodeBytes_primaryByte ..
  | ret v => exact decodeBytes_controlByte ..
  | illegalCount low => exact decodeBytes_countThree ..
  | illegalAlu v c => exact decodeBytes_aluByte ..
  | illegalControl v code =>
    exact (decodeBytes_controlByte ..).trans (decodeControl_of_unlisted (by simpa [Instr.wf] using hwf) v a)
  | illegalPrimary v code =>
    exact (decodeBytes_primaryByte ..).trans (decodePrimary_of_unlisted (by simpa [Instr.wf] using hwf) v a b)
  | loadImmediate v x y =>
    obtain ⟨rfl, rfl⟩ : x = a ∧ y = b := by simpa [Instr.operandBytes] using h
    exact decodeBytes_primaryByte ..
  | push v x | pop v x | print v x =>
    obtain rfl : x = a := by simpa [Instr.operandBytes] using h
    exact decodeBytes_primaryByte ..
  | call v x | jmp v x | jeq v x | jne v x =>
    obtain rfl : x = a := by simpa [Instr.operandBytes] using h
    exact decodeBytes_controlByte ..
  | inc v c x | dec v c x | not v c x =>
    obtain rfl : x = a := by simpa [Instr.operandBytes] using h
    exact decodeBytes_aluByte ..
  | add v c x y | sub v c x y | mul v c x y | div v c x y | mod v c x y | cmp v c x y | and v c x y | or v c x y
  | xor v c x y | shl v c x y | shr v c x y | tst v c x y =>
    obtain ⟨rfl, rfl⟩ : x = a ∧ y = b := by simpa [Instr.operandBytes] using h
    exact decodeBytes_aluByte ..

theorem operandBytes_length_le_two (i : Instr) : i.operandBytes.length ≤ 2 := by
  cases i <;> simp [Instr.operandBytes]

/-- Any two or more bytes that begin with the operand bytes do behind the opcode byte. -/
theorem decode_opcode_cons {i : Instr} (hwf : i.wf = true) {operands : List Byte} (hlen : 2 ≤ operands.length)
    (h : i.operandBytes <+: operands) : decode (i.opcode :: operands) = .ok i := by
  obtain _ | ⟨a, _ | ⟨b, rest⟩⟩ := operands
  · simp at hlen
  · simp at hlen
  · have hused : i.operandBytes <+: [a, b] :=
      List.prefix_of_prefix_length_le h (List.prefix_append [a, b] rest) (operandBytes_length_le_two i)
    exact congrArg Except.ok (decodeBytes_opcode hwf hused)

/-- Settles O1: behind the opcode byte stand the operand bytes, then the fill, then what follows. -/
theorem decodingAnEncodedInstructionGivesItBack : Obligations.DecodingAnEncodedInstructionGivesItBack := by
  intro i rest hwf hlen
  rw [encode, List.append_assoc, List.cons_append]
  exact decode_opcode_cons hwf (by simp; omega) (List.prefix_append ..)

/-- Settles O5: each word is evaluated. -/
theorem writtenOutWordsDecode : Obligations.WrittenOutWordsDecode := by
  unfold Obligations.WrittenOutWordsDecode
  decide

/-! ### What every decoded instruction has in common -/

/-- What holds of the illegal row of `v = 3` and of each table's answers holds of every decoded instruction. -/
theorem decodeBytes_forall {P : Instr → Prop} {a b : Byte} (hcount : ∀ low, P (.illegalCount low))
    (halu : ∀ v c code, P (decodeAlu v c code a b)) (hcontrol : ∀ v code, P (decodeControl v code a))
    (hprimary : ∀ v code, P (decodePrimary v code a b)) (ir : Byte) : P (decodeBytes ir a b) := by
  unfold decodeBytes
  split
  · exact hcount _
  · split
    · exact halu ..
    · exact hcontrol ..
    · exact hprimary ..

section Tables

variable (v : OperandCount) (c : Bool) (code : BitVec 4) (a b : Byte)

theorem wf_decodeAlu : (decodeAlu v c code a b).wf = true := by
  unfold decodeAlu; split <;> rfl

theorem wf_decodeControl : (decodeControl v code a).wf = true := by
  unfold decodeControl
  split
  case h_6 => simp_all [Instr.wf, controlCodes]
  all_goals rfl

theorem wf_decodePrimary : (decodePrimary v code a b).wf = true := by
  unfold decodePrimary
  split
  case h_6 => simp_all [Instr.wf, primaryCodes]
  all_goals rfl

theorem operandBytes_decodeAlu : (decodeAlu v c code a b).operandBytes <+: [a, b] := by
  unfold decodeAlu; split <;> simp [Instr.operandBytes]

theorem operandBytes_decodeControl : (decodeControl v code a).operandBytes <+: [a, b] := by
  unfold decodeControl; split <;> simp [Instr.operandBytes]

theorem operandBytes_decodePrimary : (decodePrimary v code a b).operandBytes <+: [a, b] := by
  unfold decodePrimary; split <;> simp [Instr.operandBytes]

theorem operation_decodeAlu_mem : (decodeAlu v c code a b).operation ∈ aluOperations := by
  unfold decodeAlu; split <;> simp [Instr.operation, aluOperations]

theorem operation_decodeControl_mem : (decodeControl v code a).operation ∈ controlOperations := by
  unfold decodeControl; split <;> simp [Instr.operation, controlOperations]

theorem operation_decodePrimary_mem : (decodePrimary v code a b).operation ∈ primaryOperations := by
  unfold decodePrimary; split <;> simp [Instr.operation, primaryOperations]

variable (v' : OperandCount) (c' : Bool) (a' b' : Byte)

/-- The operation is the code's alone: the operand count, bit 4 and the operand bytes play no part. -/
theorem operation_decodeAlu_eq : (decodeAlu v' c' code a' b').operation = (decodeAlu v c code a b).operation := by
  unfold decodeAlu; split <;> rfl

theorem operation_decodeControl_eq : (decodeControl v' code a').operation = (decodeControl v code a).operation := by
  unfold decodeControl; split <;> rfl

theorem operation_decodePrimary_eq : (decodePrimary v' code a' b').operation = (decodePrimary v code a b).operation := by
  unfold decodePrimary; split <;> rfl

end Tables

/-- Settles O2: the opcode byte is kept by `opcode_decodeBytes`, the rest table by table. -/
theorem decodedInstructionKeepsItsBytes : Obligations.DecodedInstructionKeepsItsBytes := by
  intro ir a b
  have hwf : (decodeBytes ir a b).wf = true :=
    decodeBytes_forall (P := (·.wf = true)) (fun _ => rfl) (wf_decodeAlu · · · a b) (wf_decodeControl · · a)
      (wf_decodePrimary · · a b) ir
  have hused : (decodeBytes ir a b).operandBytes <+: [a, b] :=
    decodeBytes_forall (P := (·.operandBytes <+: [a, b])) (fun _ => List.nil_prefix) (operandBytes_decodeAlu · · · a b)
      (operandBytes_decodeControl · · a b) (operandBytes_decodePrimary · · a b) ir
  exact ⟨hwf, opcode_decodeBytes ir a b, hused⟩

/-! ### Which fields select the operation (R47, R65) -/

theorem exists_operandCount {n : BitVec 2} (h : n ≠ 3#2) : ∃ v, operandCount? n = some v :=
  Option.isSome_iff_exists.mp (by revert n; decide)

/-- Of two legal opcode bytes with the same code, the operation is the same if bit 5 is and, outside the ALU class,
bit 4. -/
theorem operation_decodeBytes_eq {ir ir' : Byte} (hn : fieldCount ir ≠ 3#2) (hn' : fieldCount ir' ≠ 3#2)
    (hA : fieldAlu ir' = fieldAlu ir) (hC : fieldAlu ir = false → fieldControl ir' = fieldControl ir)
    (hcode : fieldCode ir' = fieldCode ir) (a b a' b' : Byte) :
    (decodeBytes ir' a' b').operation = (decodeBytes ir a b).operation := by
  obtain ⟨v, hv⟩ := exists_operandCount hn
  obtain ⟨v', hv'⟩ := exists_operandCount hn'
  cases halu : fieldAlu ir with
  | true =>
    rw [decodeBytes_of_alu hv halu, decodeBytes_of_alu hv' (hA.trans halu), hcode]
    exact operation_decodeAlu_eq ..
  | false =>
    cases hcontrol : fieldControl ir with
    | true =>
      rw [decodeBytes_of_control hv halu hcontrol,
        decodeBytes_of_control hv' (hA.trans halu) ((hC halu).trans hcontrol), hcode]
      exact operation_decodeControl_eq ..
    | false =>
      rw [decodeBytes_of_primary hv halu hcontrol,
        decodeBytes_of_primary hv' (hA.trans halu) ((hC halu).trans hcontrol), hcode]
      exact operation_decodePrimary_eq ..

/-- Flipping bit 4 leaves the other three fields. -/
theorem fields_flipControl (ir : Byte) : fieldCount (ir ^^^ 0x10) = fieldCount ir ∧
    fieldAlu (ir ^^^ 0x10) = fieldAlu ir ∧ fieldCode (ir ^^^ 0x10) = fieldCode ir := by
  revert ir; decide

/-- All fields but the operand count lie in the low six bits. -/
theorem fields_of_lowSix {ir ir' : Byte} (h : ir'.extractLsb' 0 6 = ir.extractLsb' 0 6) :
    fieldAlu ir' = fieldAlu ir ∧ fieldControl ir' = fieldControl ir ∧ fieldCode ir' = fieldCode ir := by
  have hbits (k : Nat) (hk : k < 6) : ir'.getLsbD k = ir.getLsbD k := by
    simpa [hk] using congrArg (·.getLsbD k) h
  refine ⟨hbits 5 (by decide), hbits 4 (by decide), BitVec.eq_of_getLsbD_eq fun k hk => ?_⟩
  simpa [fieldCode, hk] using hbits k (by omega)

/-- Settles O4: the class's table answers, and only bits 5, 4 (outside the ALU class) and the code count. -/
theorem classSelectionFollowsThePrecedence : Obligations.ClassSelectionFollowsThePrecedence := by
  intro ir a b hn
  obtain ⟨v, hv⟩ : ∃ v, operandCount? (fieldCount ir) = some v := exists_operandCount hn
  refine ⟨fun hA => ?alu, fun hA hC => ?control, fun hA hC => ?primary, fun hA => ?flip, fun ir' a' b' hn' hlow => ?low⟩
  case alu => exact decodeBytes_of_alu hv hA a b ▸ operation_decodeAlu_mem ..
  case control => exact decodeBytes_of_control hv hA hC a b ▸ operation_decodeControl_mem ..
  case primary => exact decodeBytes_of_primary hv hA hC a b ▸ operation_decodePrimary_mem ..
  case flip =>
    obtain ⟨hcount, halu, hcode⟩ := fields_flipControl ir
    exact operation_decodeBytes_eq hn (hcount ▸ hn) halu (fun hA' => absurd (hA.symm.trans hA') (by decide)) hcode ..
  case low =>
    obtain ⟨halu, hcontrol, hcode⟩ := fields_of_lowSix hlow
    exact operation_decodeBytes_eq hn hn' halu (fun _ => hcontrol) hcode ..

end Sys2Proof
end

section
/-! ## The lines of a program file (30_encoding.md R58, 70_reset_and_hazards.md R134) -/

namespace Sys2Proof.Machine

open Sys2Proof.Claims

/-- The binary character of a bit. -/
def charOfBit (bit : Bool) : Char := if bit then '1' else '0'

@[simp] theorem bitOfChar_charOfBit (bit : Bool) : bitOfChar (charOfBit bit) = some bit := by
  cases bit <;> rfl

theorem bitOfChar_eq_none {ch : Char} : bitOfChar ch = none ↔ ch ≠ '0' ∧ ch ≠ '1' := by
  unfold bitOfChar; split <;> simp_all

/-- The number of a list of bits, the first one the most significant, read on from `acc`. -/
def numberOfBits (acc : Nat) (bits : List Bool) : Nat := bits.foldl (fun n bit => 2 * n + bit.toNat) acc

/-- Reading the characters of bits gives their number, whatever follows. -/
theorem readBits_charOfBit (bits : List Bool) (acc : Nat) (rest : List Char) :
    readBits bits.length acc (bits.map charOfBit ++ rest) = some (numberOfBits acc bits) := by
  induction bits generalizing acc with
  | nil => rfl
  | cons bit bits ih => simpa [readBits, numberOfBits] using ih (2 * acc + bit.toNat)

/-- Reading fails when a character is missing or not binary. -/
theorem readBits_eq_none {n : Nat} {line : List Char}
    (h : line.length < n ∨ ∃ d ∈ line.take n, bitOfChar d = none) (acc : Nat) : readBits n acc line = none := by
  induction n generalizing acc line with
  | zero => simp at h
  | succ n ih =>
    cases line with
    | nil => rfl
    | cons ch rest =>
      cases hch : bitOfChar ch with
      | none => simp [readBits, hch]
      | some bit => simpa [readBits, hch] using ih (by simpa [hch] using h) (2 * acc + bit.toNat)

theorem readLine_of_nonbinary {ch : Char} (h : bitOfChar ch = none) (rest : List Char) :
    readLine (ch :: rest) = .ignored := by
  simp [readLine, h]

theorem readLine_of_readBits_none {ch : Char} (hch : bitOfChar ch ≠ none) {rest : List Char}
    (h : readBits 8 0 (ch :: rest) = none) : readLine (ch :: rest) = .malformed := by
  obtain ⟨bit, hbit⟩ := Option.ne_none_iff_exists'.mp hch
  simp [readLine, hbit, h]

/-- A line whose 8 bits can be read begins with a binary character, so it is not ignored. -/
theorem readLine_of_readBits {line : List Char} {n : Nat} (h : readBits 8 0 line = some n) :
    readLine line = .byte (BitVec.ofNat 8 n) := by
  cases line with
  | nil => cases h
  | cons ch rest =>
    cases hch : bitOfChar ch with
    | none => simp [readBits, hch] at h
    | some bit => simp [readLine, hch, h]

/-- The bits of a byte, bit 7 first. -/
def bitsOfByte (b : Byte) : List Bool := [7, 6, 5, 4, 3, 2, 1, 0].map b.getLsbD

theorem byteChars_eq (b : Byte) : byteChars b = (bitsOfByte b).map charOfBit := rfl

theorem numberOfBits_bitsOfByte (b : Byte) : numberOfBits 0 (bitsOfByte b) = b.toNat := by
  revert b; decide

/-- Settles O53: a line of at least 8 binary characters, a line that begins with none, and the lines between. -/
theorem programLinesReadAsBytes : Obligations.ProgramLinesReadAsBytes := by
  refine ⟨fun b rest => ?byte, rfl, fun ch rest h0 h1 => ?ignored, fun ch rest hch hrest => ?malformed⟩
  case byte =>
    have hbits : readBits 8 0 (byteChars b ++ rest) = some b.toNat :=
      numberOfBits_bitsOfByte b ▸ readBits_charOfBit (bitsOfByte b) 0 rest
    rw [readLine_of_readBits hbits, BitVec.ofNat_toNat, BitVec.setWidth_eq]
  case ignored => exact readLine_of_nonbinary (bitOfChar_eq_none.mpr ⟨h0, h1⟩) rest
  case malformed =>
    have hbinary : bitOfChar ch ≠ none := by rw [Ne, bitOfChar_eq_none]; tauto
    refine readLine_of_readBits_none hbinary (readBits_eq_none ?_ 0)
    obtain hshort | ⟨d, hd, hd0, hd1⟩ := hrest
    · exact .inl (Nat.succ_lt_succ hshort)
    · exact .inr ⟨d, List.mem_cons_of_mem ch hd, bitOfChar_eq_none.mpr ⟨hd0, hd1⟩⟩

end Sys2Proof.Machine
end

section
/-! ## Fetch, decode and dispatch (40_fetch_decode_dispatch.md)

What a step does, one equation per branch of `step`; the bytes a fetch reads after a word was placed; the statements'
opcode bytes as those of the encoder. -/

namespace Sys2Proof.Machine

open Sys2Proof Sys2Proof.Claims

/-! ### The step (R60 to R63) -/

/-- The three bytes at `pc`, read as a list, decode to the instruction a fetch gives. -/
theorem decode_fetched (s : State) :
    decode [s.read s.pc, s.read (s.pc + 1), s.read (s.pc + 2)] = .ok (fetchInstr s) := rfl

/-- A running machine whose fetch is out of range raises (R62). -/
theorem step_of_outOfRange {s : State} (hrun : s.run = .running) (hpc : 253 < s.pc.toNat) :
    step s = failed s .addressOutOfRange (s.read s.pc) (some 256) := by
  have hfetch : ¬ s.fetchInRange = true := by rw [fetchInRange_iff]; omega
  simp [step, hrun, hfetch, raiseFetchRange, raise_eq, errorState, failed]

/-- Whatever an instruction answers, it is a next state: an error is one too (60_exceptions.md R116). -/
theorem Answers.exists_next {s : State} {i : Instr} {r : Result} (h : Answers s i r) : ∃ t, r = .next t := by
  cases h with
  | commits => exact ⟨_, rfl⟩
  | raises => exact ⟨_, rfl⟩

/-- Settles O7: the fetch decodes the same three bytes. -/
theorem stepRunsTheDecodedInstruction : Obligations.StepRunsTheDecodedInstruction := by
  intro s i hrun hpc hdecode
  obtain rfl : fetchInstr s = i := Except.ok.inj ((decode_fetched s).symm.trans hdecode)
  exact step_of_inRange hrun hpc

/-- Settles O8: the range check comes before the fetch, so the byte at `pc` is only recorded. -/
theorem fetchBeyondMemoryRaises : Obligations.FetchBeyondMemoryRaises :=
  fun _ hrun hpc => step_of_outOfRange hrun hpc

/-- Settles O10: in range the instruction fetched answers a next state, out of range the fetch raises. -/
theorem runningMachineAlwaysSteps : Obligations.RunningMachineAlwaysSteps := by
  intro s hrun
  by_cases hpc : s.pc.toNat ≤ 253
  · rw [step_of_inRange hrun hpc]
    exact (exec_answers (fetchInstr s) s).exists_next
  · exact ⟨_, step_of_outOfRange hrun (by omega)⟩

/-! ### A word placed where the next step fetches -/

/-- Three bytes stored from an address up are read back in order: the three addresses differ, also when they wrap. -/
theorem read_writeThree (s : State) (p b0 b1 b2 : Byte) :
    (s.writeThree p b0 b1 b2).read p = b0 ∧ (s.writeThree p b0 b1 b2).read (p + 1) = b1 ∧
      (s.writeThree p b0 b1 b2).read (p + 2) = b2 := by
  have h01 : p ≠ p + 1 := by bv_omega
  have h02 : p ≠ p + 2 := by bv_omega
  have h12 : p + 1 ≠ p + 2 := by bv_omega
  refine ⟨?_, ?_, State.read_write_same ..⟩
  · rw [State.writeThree, State.read_write_ne _ h02, State.read_write_ne _ h01, State.read_write_same]
  · rw [State.writeThree, State.read_write_ne _ h12, State.read_write_same]

variable (s : State) (nbits w : Nat)

@[simp] theorem State.withFetchWord_run : (s.withFetchWord nbits w).run = .running := readyToFetch_run s

theorem State.withFetchWord_pc_le : (s.withFetchWord nbits w).pc.toNat ≤ 253 :=
  fetchInRange_iff.mp (readyToFetch_fetchInRange s)

/-- The next fetch reads the placed word's three bytes. -/
theorem fetchInstr_withFetchWord : fetchInstr (s.withFetchWord nbits w) =
    decodeBytes (tableByte nbits w 0) (tableByte nbits w 1) (tableByte nbits w 2) := by
  obtain ⟨h0, h1, h2⟩ := read_writeThree s.readyToFetch s.readyToFetch.pc (tableByte nbits w 0) (tableByte nbits w 1)
    (tableByte nbits w 2)
  exact congr (congr (congrArg decodeBytes h0) h1) h2

/-- Settles O11: the state with the word placed can fetch, and what it fetches is the word. -/
theorem placedWordIsTheNextInstruction : Obligations.PlacedWordIsTheNextInstruction := by
  intro s nbits w
  refine ⟨decodeBytes (tableByte nbits w 0) (tableByte nbits w 1) (tableByte nbits w 2), rfl, ?_⟩
  rw [step_of_inRange (s.withFetchWord_run nbits w) (s.withFetchWord_pc_le nbits w), fetchInstr_withFetchWord]

/-! ### The illegal rows (R64, R66) -/

theorem aluOpcode_eq_aluByte (v : OperandCount) (c : Bool) (code : BitVec 4) : aluOpcode c code v = aluByte v c code := rfl

/-- The class bits of the control-flow class, written as one field or as two. -/
theorem controlOpcode_eq_controlByte (v : OperandCount) (code : BitVec 4) : controlOpcode code v = controlByte v code := by
  cases v <;> revert code <;> decide

/-- The class bits of the primary class, written as one field or as two. -/
theorem primaryOpcode_eq_primaryByte (v : OperandCount) (code : BitVec 4) : primaryOpcode code v = primaryByte v code := by
  cases v <;> revert code <;> decide

/-! Each illegal row raises its class's error with its own opcode byte and no detail (60_exceptions.md R111 to R113). -/

theorem exec_illegalCount (low : BitVec 6) (s : State) :
    exec (.illegalCount low) s = failed s .unsupportedInstruction (0b11#2 ++ low : BitVec 8) none := rfl

theorem exec_illegalAlu (v : OperandCount) (c : Bool) (s : State) :
    exec (.illegalAlu v c) s = failed s .unsupportedALUOperation (aluByte v c 0b1110) none := rfl

theorem exec_illegalControl (v : OperandCount) (code : BitVec 4) (s : State) :
    exec (.illegalControl v code) s = failed s .unsupportedControlOp (controlByte v code) none := rfl

theorem exec_illegalPrimary (v : OperandCount) (code : BitVec 4) (s : State) :
    exec (.illegalPrimary v code) s = failed s .unsupportedInstruction (primaryByte v code) none := rfl

/-- Settles O6: per illegal row, the byte decodes to the row, and the row raises. -/
theorem illegalOpcodesRaiseTheirErrors : Obligations.IllegalOpcodesRaiseTheirErrors := by
  refine ⟨fun low a b s => ?count, fun v c a b s => ?alu, fun v code a b s hcode => ?control,
    fun v code a b s hcode => ?primary⟩
  case count => exact ⟨decodeBytes_countThree low a b, exec_illegalCount low s⟩
  case alu =>
    rw [aluOpcode_eq_aluByte]
    exact ⟨decodeBytes_aluByte v c 0b1110 a b, exec_illegalAlu v c s⟩
  case control =>
    rw [controlOpcode_eq_controlByte, decodeBytes_controlByte]
    exact ⟨decodeControl_of_unlisted hcode v a, exec_illegalControl v code s⟩
  case primary =>
    rw [primaryOpcode_eq_primaryByte, decodeBytes_primaryByte]
    exact ⟨decodePrimary_of_unlisted hcode v a b, exec_illegalPrimary v code s⟩

end Sys2Proof.Machine
end

section
/-! ## The primary instructions (41_primary.md)

`OneRegisterRule.of_advance` is the rule of every instruction that checks one register and advances; what such an
instruction has done when it does not raise is read back off the rule by `OneRegisterRule.completes`. Each instruction's
rule is then an equation of `exec`, its effect written in the operations of the model. -/

namespace Sys2Proof.Claims

open Sys2Proof Sys2Proof.Machine

variable {opcode : OperandCount → Byte} {mk : OperandCount → Byte → Byte → Instr} {effect : State → Fin 8 → Byte → State}

/-- An instruction that checks its register and then ends in `pc <- next` keeps the one-register rule
(40_fetch_decode_dispatch.md R67, R68). -/
theorem OneRegisterRule.of_advance (hdecode : ∀ v a b, decodeBytes (opcode v) a b = mk v a b)
    (hexec : ∀ v a b s, exec (mk v a b) s = withReg (opcode v) a s fun ra => advance (opcode v) v s (effect s ra b)) :
    OneRegisterRule opcode mk effect := by
  refine ⟨hdecode, fun v a b ra s ha hnext => ?completes, fun v a b s ha => ?register, fun v a b s ha hnext => ?next⟩
  case completes =>
    rw [hexec, withReg_of_index ha]
    exact advance_of_le hnext
  case register =>
    rw [hexec]
    exact withReg_of_large ha
  case next =>
    rw [hexec, withReg_of_index (ra := ⟨a.toNat, by omega⟩) rfl]
    exact advance_of_gt hnext

/-- An instruction of the primary table that checks its register and then advances keeps the one-register rule. -/
theorem OneRegisterRule.of_primary {code : BitVec 4} (hdecode : ∀ v a b, decodePrimary v code a b = mk v a b)
    (hexec : ∀ v a b s, exec (mk v a b) s =
      withReg (primaryByte v code) a s fun ra => advance (primaryByte v code) v s (effect s ra b)) :
    OneRegisterRule (primaryOpcode code) mk effect := by
  refine of_advance (fun v a b => ?_) (fun v a b s => ?_) <;> rw [primaryOpcode_eq_primaryByte]
  · rw [decodeBytes_primaryByte, hdecode]
  · exact hexec v a b s

/-- A one-register instruction that does not raise names a register and has had its effect. -/
theorem OneRegisterRule.completes (h : OneRegisterRule opcode mk effect) {v : OperandCount} {a b : Byte} {s t : State}
    (hexec : exec (mk v a b) s = .next t) (hrun : t.run ≠ .error) :
    ∃ ra : Fin 8, a.toNat = ra.val ∧ t = (effect s ra b).setPc (BitVec.ofNat 8 (nextOf s v)) := by
  obtain ⟨-, hcompletes, hregister, hnext⟩ := h
  have not_failed {d : Nat} (hfailed : exec (mk v a b) s = failed s .addressOutOfRange (opcode v) (some d)) : False := by
    obtain rfl := Host.Outcome.next.inj (hexec.symm.trans hfailed)
    exact hrun rfl
  obtain ha | ha : 7 < a.toNat ∨ a.toNat ≤ 7 := by omega
  · exact (not_failed (hregister v a b s ha)).elim
  obtain hlarge | hsmall : 255 < nextOf s v ∨ nextOf s v ≤ 255 := by omega
  · exact (not_failed (hnext v a b s ha hlarge)).elim
  · exact ⟨⟨a.toNat, by omega⟩, rfl, Host.Outcome.next.inj (hexec.symm.trans (hcompletes v a b _ s rfl hsmall))⟩

end Sys2Proof.Claims

namespace Sys2Proof.Machine

open Sys2Proof Sys2Proof.Claims

/-! ### The registers after the stack's updates -/

/-- Writing back the value a register holds changes nothing. -/
@[simp] theorem State.setReg_reg_self (s : State) (i : Fin 8) : s.setReg i (s.reg i) = s := by
  simp [State.setReg, State.reg]

/-- The later of two writes to a register is the one that counts. -/
@[simp] theorem State.setReg_setReg (s : State) (i : Fin 8) (v w : Byte) : (s.setReg i v).setReg i w = s.setReg i w := by
  simp [State.setReg]

theorem State.decSp_eq (s : State) : s.decSp = s.setReg Config.spIndex (s.sp - 1) := by
  rw [State.decSp, narrow_sub_one]

theorem State.incSp_eq (s : State) : s.incSp = s.setReg Config.spIndex (s.sp + 1) := by
  rw [State.incSp, narrow_add_one]

/-- The two updates of the stack pointer undo each other, also where it wraps (20_memory.md R43). -/
theorem State.incSp_decSp (s : State) : s.decSp.incSp = s := by
  rw [State.incSp_eq, State.sp_decSp, BitVec.sub_add_cancel, State.decSp_eq, State.setReg_setReg, State.sp_eq,
    State.setReg_reg_self]

/-- The registers after an increment of the stack pointer depend on the registers alone. -/
theorem State.incSp_x_congr {s t : State} (h : s.x = t.x) : s.incSp.x = t.incSp.x := by
  simp only [State.incSp, State.setReg_x, State.sp, State.reg, h]

/-! ### The rules (R70 to R74) -/

/-- Settles O12: the primary table lists HALT, and HALT is `State.halt`. -/
theorem haltStopsTheMachine : Obligations.HaltStopsTheMachine := by
  refine ⟨fun v a b => ?_, fun _ _ => rfl⟩
  rw [primaryOpcode_eq_primaryByte]
  exact decodeBytes_primaryByte v _ a b

/-- Settles O13: one register is written. -/
theorem loadImmediateSetsARegister : Obligations.LoadImmediateSetsARegister :=
  .of_primary (effect := State.setReg) (fun _ _ _ => rfl) fun _ _ _ _ => rfl

/-- Settles O14: one event is appended. -/
theorem printAppendsTheValue : Obligations.PrintAppendsTheValue :=
  .of_primary (effect := fun s ra _ => s.emit (.print (s.reg ra))) (fun _ _ _ => rfl) fun _ _ _ _ => rfl

/-- PUSH, its effect in the operations of the model. -/
theorem push_rule : OneRegisterRule (primaryOpcode 0b0101) (fun v a _ => .push v a) fun s ra _ =>
    s.decSp.write s.decSp.sp (s.decSp.reg ra) :=
  .of_primary (fun _ _ _ => rfl) fun _ _ _ _ => rfl

/-- POP, its effect in the operations of the model. -/
theorem pop_rule : OneRegisterRule (primaryOpcode 0b0110) (fun v a _ => .pop v a) fun s ra _ =>
    (s.setReg ra (s.read s.sp)).incSp :=
  .of_primary (fun _ _ _ => rfl) fun _ _ _ _ => rfl

/-- Settles O15: the new stack pointer is one less modulo 256. -/
theorem pushStoresBelowTheStack : Obligations.PushStoresBelowTheStack := by
  have hrule := push_rule
  simp only [State.decSp_eq, State.sp_setReg_sp] at hrule
  exact hrule

/-- Settles O16: the new stack pointer is one more modulo 256. -/
theorem popLoadsTheTopOfStack : Obligations.PopLoadsTheTopOfStack := by
  have hrule := pop_rule
  simp only [State.incSp_eq] at hrule
  exact hrule

/-! ### Pairs of instructions (95_test_vectors.md S2, S4) -/

/-- Settles O43: POP writes back the value the register has after the PUSH, so what is left of the pair is the decrement of
the stack pointer and its increment. -/
theorem pushThenPopRestoresTheRegisters : Obligations.PushThenPopRestoresTheRegisters := by
  intro v v' a s t u hpush ht hpop hu
  obtain ⟨ra, ha, hpushed⟩ := push_rule.completes (b := 0) hpush ht
  obtain ⟨rb, hb, hpopped⟩ := pop_rule.completes (b := 0) hpop hu
  obtain rfl : ra = rb := Fin.ext (ha.symm.trans hb)
  have hsp : t.sp = s.sp - 1 := by simp [hpushed]
  have hread : t.read t.sp = t.reg ra := by rw [hsp, read_sp_of_push ha hpush ht]
  calc u.x = (t.setReg ra (t.read t.sp)).incSp.x := by rw [hpopped, State.setPc_x]
    _ = t.incSp.x := by rw [hread, State.setReg_reg_self]
    _ = s.decSp.incSp.x := State.incSp_x_congr (by simp [hpushed])
    _ = s.x := by rw [State.incSp_decSp]

/-- Settles O46: PRINT reads the register LOAD-IMMEDIATE wrote. -/
theorem loadImmediateThenPrintPrintsTheImmediate : Obligations.LoadImmediateThenPrintPrintsTheImmediate := by
  intro v v' a imm s t u hload ht hprint hu
  obtain ⟨ra, ha, hloaded⟩ := loadImmediateSetsARegister.completes hload ht
  obtain ⟨rb, hb, hprinted⟩ := printAppendsTheValue.completes (b := 0) hprint hu
  obtain rfl : ra = rb := Fin.ext (ha.symm.trans hb)
  have hreg : t.reg ra = imm := by simp [hloaded, State.reg]
  calc u.out = t.out ++ [.print (t.reg ra)] := by rw [hprinted]; rfl
    _ = s.out ++ [.print imm] := by rw [hreg, hloaded, State.setPc_out]

end Sys2Proof.Machine
end

section
/-! ## The ALU instructions (42_alu.md)

`exec_decodeAlu_two` and `exec_decodeAlu_one` tie the ALU table to the block `alu`: every listed code runs the block on the
registers its form names. The rules of the single instructions then need only the block's answer for their code, one
arithmetic fact each. -/

namespace Sys2Proof.Machine

open Sys2Proof Sys2Proof.Claims

/-! ### The two operand forms (40_fetch_decode_dispatch.md R67) -/

section
variable {op : Byte → Byte → AluAnswer} {ir a b : Byte} {v : OperandCount} {s : State}

theorem aluTwo_of_index {ra rb : Fin 8} (ha : a.toNat = ra.val) (hb : b.toNat = rb.val) :
    aluTwo op ir v a b s = commitAlu ir v ra s (op (s.reg ra) (s.reg rb)) := by
  rw [aluTwo, withTwoRegs, withReg_of_index ha, withReg_of_index hb]

theorem aluTwo_of_large_first (ha : 7 < a.toNat) :
    aluTwo op ir v a b s = failed s .addressOutOfRange ir (some a.toNat) :=
  withReg_of_large ha

theorem aluTwo_of_large_second (ha : a.toNat ≤ 7) (hb : 7 < b.toNat) :
    aluTwo op ir v a b s = failed s .addressOutOfRange ir (some b.toNat) := by
  rw [aluTwo, withTwoRegs, withReg_of_index (ra := ⟨a.toNat, by omega⟩) rfl]
  exact withReg_of_large hb

end

/-! ### The ALU table runs the ALU block (R99) -/

/-- The codes of the one-register operations INC, DEC and NOT (30_encoding.md R48, R52). -/
def oneRegisterCodes : List (BitVec 4) := [0b0101, 0b0110, 0b1001]

theorem exec_decodeAlu_two {code : BitVec 4} (hone : code ∉ oneRegisterCodes) (hlisted : code ≠ 0b1110)
    (v : OperandCount) (c : Bool) (a b : Byte) (s : State) :
    exec (decodeAlu v c code a b) s = aluTwo (alu code) (aluByte v c code) v a b s := by
  unfold decodeAlu
  split
  case h_6 | h_7 | h_10 => exact absurd (by decide) hone
  case h_16 => exact absurd (by decide +revert) hlisted
  all_goals rfl

/-- What the block would answer for the second value plays no part in a one-register operation. -/
theorem exec_decodeAlu_one {code : BitVec 4} (hone : code ∈ oneRegisterCodes) (v : OperandCount) (c : Bool)
    (a b vb : Byte) (s : State) :
    exec (decodeAlu v c code a b) s = aluOne (alu code · vb) (aluByte v c code) v a s := by
  simp only [oneRegisterCodes, List.mem_cons, List.not_mem_nil, or_false] at hone
  obtain rfl | rfl | rfl := hone <;> rfl

/-- On valid registers every ALU code, the illegal one too, commits the block's answer. -/
theorem exec_decodeAlu (v : OperandCount) (c : Bool) (code : BitVec 4) {a b : Byte} (s : State) {ra rb : Fin 8}
    (ha : a.toNat = ra.val) (hb : b.toNat = rb.val) :
    exec (decodeAlu v c code a b) s = commitAlu (aluByte v c code) v ra s (alu code (s.reg ra) (s.reg rb)) := by
  by_cases hone : code ∈ oneRegisterCodes
  · rw [exec_decodeAlu_one hone v c a b (s.reg rb) s]
    exact withReg_of_index ha
  by_cases hillegal : code = 0b1110
  · subst hillegal
    rfl
  · rw [exec_decodeAlu_two hone hillegal v c a b s, aluTwo_of_index ha hb]

/-- Settles O24: the answer is committed, and `next` in range lets every answer but an error advance. -/
theorem aluBlockDecidesEveryAluInstruction : Obligations.AluBlockDecidesEveryAluInstruction := by
  intro v c code a b ra rb s ha hb hnext
  rw [aluOpcode_eq_aluByte, decodeBytes_aluByte, exec_decodeAlu v c code s ha hb]
  change commitAlu _ v ra s (alu code s.x[ra] s.x[rb]) = _
  cases alu code s.x[ra] s.x[rb] with
  | result value => exact advance_of_le hnext
  | flags f => exact advance_of_le hnext
  | observe pass => exact advance_of_le hnext
  | divisionByZero => rfl
  | unsupported => rfl

end Sys2Proof.Machine

namespace Sys2Proof.Claims

open Sys2Proof Sys2Proof.Machine

/-! ### The shapes of the rules, from the block's answer -/

variable {c : Bool} {code : BitVec 4}

/-- An ALU code whose answer, committed, is an effect and an advance keeps the two-register rule. -/
theorem TwoRegisterRule.of_alu {effect : State → Fin 8 → Fin 8 → State} (hone : code ∉ oneRegisterCodes)
    (hlisted : code ≠ 0b1110)
    (hcommit : ∀ ir v s ra rb, commitAlu ir v ra s (alu code (s.reg ra) (s.reg rb)) = advance ir v s (effect s ra rb)) :
    TwoRegisterRule (aluOpcode c code) (fun v a b => decodeAlu v c code a b) effect := by
  have hexec := fun v => exec_decodeAlu_two hone hlisted v c
  refine ⟨fun v a b => decodeBytes_aluByte v c code a b, fun v a b ra rb s ha hb hnext => ?completes,
    fun v a b s ha => ?first, fun v a b s ha hb => ?second, fun v a b s ha hb hnext => ?next⟩
  case completes =>
    rw [exec_decodeAlu v c code s ha hb, hcommit]
    exact advance_of_le hnext
  case first => exact (hexec v a b s).trans (aluTwo_of_large_first ha)
  case second => exact (hexec v a b s).trans (aluTwo_of_large_second ha hb)
  case next =>
    rw [exec_decodeAlu v c code s (ra := ⟨a.toNat, by omega⟩) (rb := ⟨b.toNat, by omega⟩) rfl rfl, hcommit]
    exact advance_of_gt hnext

/-- An ALU code that always answers a value. -/
theorem TwoRegisterRule.of_result {value : Byte → Byte → Byte} (hone : code ∉ oneRegisterCodes)
    (hlisted : code ≠ 0b1110) (hvalue : ∀ va vb, alu code va vb = .result (value va vb)) :
    TwoRegisterRule (aluOpcode c code) (fun v a b => decodeAlu v c code a b) fun s ra rb =>
      s.setReg ra (value (s.reg ra) (s.reg rb)) :=
  .of_alu hone hlisted fun ir v s ra _ => congrArg (commitAlu ir v ra s) (hvalue _ _)

/-- A one-register ALU code always answers a value. -/
theorem OneRegisterRule.of_result {value : Byte → Byte} (hone : code ∈ oneRegisterCodes)
    (hvalue : ∀ va, alu code va 0 = .result (value va)) :
    OneRegisterRule (aluOpcode c code) (fun v a b => decodeAlu v c code a b) fun s ra _ =>
      s.setReg ra (value (s.reg ra)) := by
  refine .of_advance (fun v a b => decodeBytes_aluByte v c code a b) fun v a b s => ?_
  rw [exec_decodeAlu_one hone v c a b 0 s]
  simp only [aluOne, hvalue, commitAlu_result, aluOpcode_eq_aluByte]

/-- An ALU code that answers `divisionByZero` for a second value of 0 and else a value keeps the division rule. -/
theorem DivisionRule.of_alu {f : Nat → Nat → Nat} (hone : code ∉ oneRegisterCodes) (hlisted : code ≠ 0b1110)
    (hzero : ∀ va vb, vb.toNat = 0 → alu code va vb = .divisionByZero)
    (hvalue : ∀ va vb, vb.toNat ≠ 0 → alu code va vb = .result (BitVec.ofNat 8 (f va.toNat vb.toNat))) :
    DivisionRule (aluOpcode c code) (fun v a b => decodeAlu v c code a b) f := by
  have hexec := fun v => exec_decodeAlu_two hone hlisted v c
  refine ⟨fun v a b => decodeBytes_aluByte v c code a b, fun v a b ra rb s ha hb hdivisor hnext => ?completes,
    fun v a b ra rb s ha hb hdivisor => ?zero, fun v a b s ha => ?first, fun v a b s ha hb => ?second,
    fun v a b rb s ha hb hdivisor hnext => ?next⟩
  case completes =>
    rw [exec_decodeAlu v c code s ha hb, hvalue (s.reg ra) (s.reg rb) hdivisor]
    exact advance_of_le hnext
  case zero =>
    rw [exec_decodeAlu v c code s ha hb, hzero (s.reg ra) (s.reg rb) hdivisor]
    rfl
  case first => exact (hexec v a b s).trans (aluTwo_of_large_first ha)
  case second => exact (hexec v a b s).trans (aluTwo_of_large_second ha hb)
  case next =>
    rw [exec_decodeAlu v c code s (ra := ⟨a.toNat, by omega⟩) rfl hb, hvalue _ (s.reg rb) hdivisor]
    exact advance_of_gt hnext

/-- A two-register instruction on valid registers that does not raise has had its effect. -/
theorem TwoRegisterRule.completes {opcode : OperandCount → Byte} {mk : OperandCount → Byte → Byte → Instr}
    {effect : State → Fin 8 → Fin 8 → State} (h : TwoRegisterRule opcode mk effect) {v : OperandCount} {a b : Byte}
    {ra rb : Fin 8} {s t : State} (ha : a.toNat = ra.val) (hb : b.toNat = rb.val) (hexec : exec (mk v a b) s = .next t)
    (hrun : t.run ≠ .error) : t = (effect s ra rb).setPc (BitVec.ofNat 8 (nextOf s v)) := by
  obtain ⟨-, hcompletes, -, -, hnext⟩ := h
  obtain hlarge | hsmall : 255 < nextOf s v ∨ nextOf s v ≤ 255 := by omega
  · obtain rfl := Host.Outcome.next.inj (hexec.symm.trans (hnext v a b s (by omega) (by omega) hlarge))
    exact absurd rfl hrun
  · exact Host.Outcome.next.inj (hexec.symm.trans (hcompletes v a b ra rb s ha hb hsmall))

end Sys2Proof.Claims

namespace Sys2Proof.Machine

open Sys2Proof Sys2Proof.Claims

/-! ### What the block answers, in the terms of the statements (R80 to R95) -/

/-- An exact result is reduced to any natural number it agrees with modulo 256 (R80). -/
theorem narrow_eq_ofNat {n : Int} {m : Nat} (h : n % 256 = m % 256) : narrow n = BitVec.ofNat 8 m := by
  have hn := toNat_narrow n
  refine BitVec.eq_of_toNat_eq ?_
  rw [BitVec.toNat_ofNat]
  omega

section
variable (va vb : Byte)

theorem aluAdd_eq : aluAdd va vb = .result (BitVec.ofNat 8 (va.toNat + vb.toNat)) :=
  congrArg AluAnswer.result (narrow_eq_ofNat (by omega))

theorem aluSub_eq : aluSub va vb =
    .result (BitVec.ofNat 8 (if vb.toNat ≤ va.toNat then va.toNat - vb.toNat else va.toNat + 256 - vb.toNat)) := by
  have hvb := vb.isLt
  exact congrArg AluAnswer.result (narrow_eq_ofNat (by split <;> omega))

theorem aluMul_eq : aluMul va vb = .result (BitVec.ofNat 8 (va.toNat * vb.toNat)) :=
  congrArg AluAnswer.result (narrow_eq_ofNat (by rw [Nat.cast_mul]))

theorem aluInc_eq : aluInc va = .result (BitVec.ofNat 8 (va.toNat + 1)) :=
  congrArg AluAnswer.result (narrow_eq_ofNat (by omega))

theorem aluDec_eq : aluDec va = .result (BitVec.ofNat 8 (va.toNat + 255)) :=
  congrArg AluAnswer.result (narrow_eq_ofNat (by omega))

/-- Inverting every bit of a byte is subtracting it from 255. -/
theorem aluNot_eq : aluNot va = .result (BitVec.ofNat 8 (255 - va.toNat)) := by
  have hnot : va ^^^ 0xFF = ~~~va := BitVec.xor_allOnes
  refine congrArg AluAnswer.result (hnot.trans (BitVec.eq_of_toNat_eq ?_))
  rw [BitVec.toNat_not, BitVec.toNat_ofNat]
  omega

/-- From 8 on the factor `2 ^ vb` is a multiple of 256. -/
theorem aluShl_eq : aluShl va vb = .result (BitVec.ofNat 8 (if 8 ≤ vb.toNat then 0 else va.toNat * 2 ^ vb.toNat)) := by
  refine congrArg AluAnswer.result (narrow_eq_ofNat ?_)
  split
  · have hdvd : 256 ∣ va.toNat * 2 ^ vb.toNat := Dvd.dvd.mul_left (pow_dvd_pow 2 ‹8 ≤ vb.toNat›) va.toNat
    omega
  · rfl

/-- From 8 on the divisor `2 ^ vb` is above every byte. -/
theorem aluShr_eq : aluShr va vb = .result (BitVec.ofNat 8 (if 8 ≤ vb.toNat then 0 else va.toNat / 2 ^ vb.toNat)) := by
  refine congrArg AluAnswer.result (narrow_eq_ofNat ?_)
  split
  · have hpow : 2 ^ 8 ≤ 2 ^ vb.toNat := Nat.pow_le_pow_right (by decide) ‹8 ≤ vb.toNat›
    rw [Nat.div_eq_of_lt (va.isLt.trans_le hpow)]
  · rfl

/-! A bitwise operation on bytes is its operation on bits, bit by bit. -/

theorem aluAnd_eq : aluAnd va vb = .result (BitVec.ofFnLE fun k : Fin 8 => va.getLsbD k && vb.getLsbD k) := by
  refine congrArg AluAnswer.result (BitVec.eq_of_getLsbD_eq fun k hk => ?_)
  simp [hk]

theorem aluOr_eq : aluOr va vb = .result (BitVec.ofFnLE fun k : Fin 8 => va.getLsbD k || vb.getLsbD k) := by
  refine congrArg AluAnswer.result (BitVec.eq_of_getLsbD_eq fun k hk => ?_)
  simp [hk]

theorem aluXor_eq : aluXor va vb = .result (BitVec.ofFnLE fun k : Fin 8 => va.getLsbD k != vb.getLsbD k) := by
  refine congrArg AluAnswer.result (BitVec.eq_of_getLsbD_eq fun k hk => ?_)
  simp [hk]

variable {vb} in
theorem aluDiv_of_ne_zero (h : vb.toNat ≠ 0) : aluDiv va vb = .result (BitVec.ofNat 8 (va.toNat / vb.toNat)) := by
  rw [aluDiv, if_neg h, narrow_natCast]

variable {vb} in
theorem aluMod_of_ne_zero (h : vb.toNat ≠ 0) : aluMod va vb = .result (BitVec.ofNat 8 (va.toNat % vb.toNat)) := by
  rw [aluMod, if_neg h, narrow_natCast]

theorem compareFlags_eq : compareFlags va vb = if va = vb then 0b001 else if vb < va then 0b010 else 0b100 := by
  simp only [compareFlags, BitVec.toNat_inj, BitVec.lt_def]

theorem compareFlags_equalBit : (compareFlags va vb).getLsbD 0 = decide (va = vb) := by
  rw [compareFlags_eq]
  split
  · simp [*]
  · split <;> simp [*]

end

/-! ### The rules (R81 to R95) -/

/-- Settles O17: the block answers the exact result reduced modulo 256. -/
theorem addSubMulWriteTheResultModulo256 : Obligations.AddSubMulWriteTheResultModulo256 :=
  ⟨fun _ => .of_result (code := 0b0000) (by decide) (by decide) aluAdd_eq,
    fun _ => .of_result (code := 0b0001) (by decide) (by decide) aluSub_eq,
    fun _ => .of_result (code := 0b0010) (by decide) (by decide) aluMul_eq⟩

/-- Settles O18: the block compares the divisor with 0 before anything else. -/
theorem divAndModDivideOrRaise : Obligations.DivAndModDivideOrRaise :=
  ⟨fun _ => .of_alu (code := 0b0011) (by decide) (by decide) (fun _ _ h => if_pos h) fun va _ => aluDiv_of_ne_zero va,
    fun _ => .of_alu (code := 0b0100) (by decide) (by decide) (fun _ _ h => if_pos h) fun va _ => aluMod_of_ne_zero va⟩

/-- Settles O19: the three one-register codes. -/
theorem incDecNotUpdateOneRegister : Obligations.IncDecNotUpdateOneRegister :=
  ⟨fun _ => .of_result (code := 0b0101) (by decide) aluInc_eq,
    fun _ => .of_result (code := 0b0110) (by decide) aluDec_eq,
    fun _ => .of_result (code := 0b1001) (by decide) aluNot_eq⟩

/-- Settles O20: the block's answer, read bit by bit. -/
theorem andOrXorWorkBitByBit : Obligations.AndOrXorWorkBitByBit :=
  ⟨fun _ => .of_result (code := 0b1000) (by decide) (by decide) aluAnd_eq,
    fun _ => .of_result (code := 0b1010) (by decide) (by decide) aluOr_eq,
    fun _ => .of_result (code := 0b1011) (by decide) (by decide) aluXor_eq⟩

/-- Settles O21: the amount is a whole byte, and 8 or more leaves no bit. -/
theorem shiftsUseTheWholeAmount : Obligations.ShiftsUseTheWholeAmount :=
  ⟨fun _ => .of_result (code := 0b1100) (by decide) (by decide) aluShl_eq,
    fun _ => .of_result (code := 0b1101) (by decide) (by decide) aluShr_eq⟩

/-- CMP, its effect in the operations of the model. -/
theorem cmp_rule (c : Bool) : TwoRegisterRule (aluOpcode c 0b0111) (fun v a b => .cmp v c a b) fun s ra rb =>
    s.setFlags (compareFlags (s.reg ra) (s.reg rb)) :=
  .of_alu (code := 0b0111) (by decide) (by decide) fun _ _ _ _ _ => rfl

/-- Settles O22: comparing bytes is comparing the unsigned numbers they are. -/
theorem cmpSetsExactlyOneFlag : Obligations.CmpSetsExactlyOneFlag := by
  intro c
  have hrule := cmp_rule c
  simp only [compareFlags_eq] at hrule
  exact hrule

/-- Settles O23: bytes are equal when the numbers they are, are equal. -/
theorem tstAppendsAnObservation : Obligations.TstAppendsAnObservation := by
  refine fun c => .of_alu (code := 0b1111) (by decide) (by decide) fun ir v s ra rb => ?_
  have hpass : aluTst (s.reg ra) (s.reg rb) = .observe (s.reg ra == s.reg rb) :=
    congrArg AluAnswer.observe (decide_eq_decide.mpr BitVec.toNat_inj)
  exact congrArg (commitAlu ir v ra s) hpass

/-! ### A branch after CMP (95_test_vectors.md S3) -/

section
variable {v : OperandCount} {a : Byte} {ra : Fin 8} {s : State}

theorem exec_jeq_of_set (ha : a.toNat = ra.val) (hE : s.flagE = true) :
    exec (.jeq v a) s = .next (s.setPc (s.reg ra)) :=
  (withReg_of_index ha).trans (if_pos hE)

theorem exec_jeq_of_clear (ha : a.toNat = ra.val) (hE : s.flagE = false) (hnext : nextOf s v ≤ 255) :
    exec (.jeq v a) s = .next (s.setPc (BitVec.ofNat 8 (nextOf s v))) :=
  (withReg_of_index ha).trans ((if_neg (by simp [hE])).trans (advance_of_le hnext))

theorem exec_jne_of_set (ha : a.toNat = ra.val) (hE : s.flagE = true) (hnext : nextOf s v ≤ 255) :
    exec (.jne v a) s = .next (s.setPc (BitVec.ofNat 8 (nextOf s v))) :=
  (withReg_of_index ha).trans ((if_pos hE).trans (advance_of_le hnext))

theorem exec_jne_of_clear (ha : a.toNat = ra.val) (hE : s.flagE = false) :
    exec (.jne v a) s = .next (s.setPc (s.reg ra)) :=
  (withReg_of_index ha).trans (if_neg (by simp [hE]))

end

/-- Settles O45: the CMP leaves the equal bit set exactly when the values are equal, and the registers as they were. -/
theorem afterCmpExactlyOneBranchJumps : Obligations.AfterCmpExactlyOneBranchJumps := by
  intro v v' c a b target ra rb rt s t ha hb htarget hcmp hrun hnext
  have ht := (cmp_rule c).completes ha hb hcmp hrun
  have hreg : s.x[rt] = t.reg rt := by rw [ht]; rfl
  have hE : t.flagE = decide (s.x[ra] = s.x[rb]) := by
    rw [ht]
    exact compareFlags_equalBit s.x[ra] s.x[rb]
  rw [hreg]
  refine ⟨fun heq => ?equal, fun hne => ?different⟩
  case equal =>
    have hset : t.flagE = true := by rw [hE, decide_eq_true heq]
    exact ⟨exec_jeq_of_set htarget hset, exec_jne_of_set htarget hset hnext⟩
  case different =>
    have hclear : t.flagE = false := by rw [hE, decide_eq_false hne]
    exact ⟨exec_jne_of_clear htarget hclear, exec_jeq_of_clear htarget hclear hnext⟩

end Sys2Proof.Machine
end

section
/-! ## The control-flow instructions (43_control_flow.md)

`BranchRule.of_ite` is the rule of the two conditional jumps, which differ in the equal bit that takes them. CALL's
equations are written in the operations of the model; what a CALL that does not raise has done is read back off them by
`call_completes`. -/

namespace Sys2Proof.Machine

open Sys2Proof Sys2Proof.Claims

theorem decodeBytes_controlOpcode (v : OperandCount) (code : BitVec 4) (a b : Byte) :
    decodeBytes (controlOpcode code v) a b = decodeControl v code a := by
  rw [controlOpcode_eq_controlByte, decodeBytes_controlByte]

/-- A control-flow instruction that checks its register raises with its own opcode byte (40_fetch_decode_dispatch.md
R67). -/
theorem withReg_controlByte_of_large {v : OperandCount} {code : BitVec 4} {a : Byte} {s : State} {k : Fin 8 → Result}
    (ha : 7 < a.toNat) :
    withReg (controlByte v code) a s k = failed s .addressOutOfRange (controlOpcode code v) (some a.toNat) := by
  rw [controlOpcode_eq_controlByte]
  exact withReg_of_large ha

/-- A control-flow instruction that uses `next` raises when it is no byte (40_fetch_decode_dispatch.md R68). -/
theorem withNext_controlByte_of_gt {v : OperandCount} {code : BitVec 4} {s : State} {k : Byte → Result}
    (hnext : 255 < nextOf s v) :
    withNext (controlByte v code) v s k = failed s .addressOutOfRange (controlOpcode code v) (some 256) := by
  rw [controlOpcode_eq_controlByte]
  exact withNext_of_gt hnext

end Sys2Proof.Machine

namespace Sys2Proof.Claims

open Sys2Proof Sys2Proof.Machine

/-- An instruction of the control-flow table that checks its register, and then jumps to its value when the equal bit is
`taken` and advances when it is not, keeps the branch rule. -/
theorem BranchRule.of_ite {code : BitVec 4} {mk : OperandCount → Byte → Instr} {taken : Bool}
    (hdecode : ∀ v a, decodeControl v code a = mk v a)
    (hexec : ∀ v a s, exec (mk v a) s = withReg (controlByte v code) a s fun ra =>
      if s.flagE = taken then .next (s.setPc (s.reg ra)) else advance (controlByte v code) v s s) :
    BranchRule (controlOpcode code) mk taken := by
  have falls {v : OperandCount} {a : Byte} {s : State} (ha : a.toNat ≤ 7) (hE : s.flagE ≠ taken) :
      exec (mk v a) s = advance (controlByte v code) v s s := by
    rw [hexec, withReg_of_index (ra := ⟨a.toNat, by omega⟩) rfl, if_neg hE]
  refine ⟨fun v a b => ?decodes, fun v a ra s ha hE => ?jumps, fun v a s ha hE hnext => ?advances,
    fun v a s ha => ?register, fun v a s ha hE hnext => ?next⟩
  case decodes => rw [decodeBytes_controlOpcode, hdecode]
  case jumps =>
    rw [hexec, withReg_of_index ha]
    exact if_pos hE
  case advances => exact (falls ha hE).trans (advance_of_le hnext)
  case register => exact (hexec v a s).trans (withReg_controlByte_of_large ha)
  case next => exact (falls ha hE).trans (withNext_controlByte_of_gt hnext)

end Sys2Proof.Claims

namespace Sys2Proof.Machine

open Sys2Proof Sys2Proof.Claims

/-! ### The jumps (R103 to R105) -/

/-- JNE with the jump it takes on a clear equal bit as the first branch. -/
theorem exec_jne_eq (v : OperandCount) (a : Byte) (s : State) :
    exec (.jne v a) s = withReg (controlByte v 0b0110) a s fun ra =>
      if s.flagE = false then .next (s.setPc (s.reg ra)) else advance (controlByte v 0b0110) v s s := by
  refine congrArg (withReg (controlByte v 0b0110) a s) (funext fun ra => ?_)
  cases s.flagE <;> rfl

/-- Settles O28: both are the one branch, on opposite values of the equal bit. -/
theorem conditionalJumpsFollowTheEqualBit : Obligations.ConditionalJumpsFollowTheEqualBit :=
  ⟨.of_ite (fun _ _ => rfl) fun _ _ _ => rfl, .of_ite (fun _ _ => rfl) exec_jne_eq⟩

/-- Settles O27: `next` is not used. -/
theorem jmpGoesToTheRegister : Obligations.JmpGoesToTheRegister :=
  ⟨fun v a b => decodeBytes_controlOpcode v _ a b, fun _ _ _ _ ha => withReg_of_index ha,
    fun _ _ _ ha => withReg_controlByte_of_large ha⟩

/-! ### CALL and RET (R101, R102) -/

section
variable {v : OperandCount} {a : Byte} {s t : State}

/-- A CALL that names a register stores `next` at the decremented stack pointer and jumps to the register's value, read
after the decrement. -/
theorem exec_call_of_index {ra : Fin 8} (ha : a.toNat = ra.val) (hnext : nextOf s v ≤ 255) :
    exec (.call v a) s =
      .next ((s.decSp.write s.decSp.sp (BitVec.ofNat 8 (nextOf s v))).setPc (s.decSp.reg ra)) :=
  (withReg_of_index ha).trans (withNext_of_le hnext)

theorem exec_call_of_large (ha : 7 < a.toNat) :
    exec (.call v a) s = failed s .addressOutOfRange (controlOpcode 0b0000 v) (some a.toNat) :=
  withReg_controlByte_of_large ha

theorem exec_call_of_next_gt (ha : a.toNat ≤ 7) (hnext : 255 < nextOf s v) :
    exec (.call v a) s = failed s .addressOutOfRange (controlOpcode 0b0000 v) (some 256) :=
  (withReg_of_index (ra := ⟨a.toNat, by omega⟩) rfl).trans (withNext_controlByte_of_gt hnext)

/-- An outcome whose state is not in ERROR is no failure (60_exceptions.md R116). -/
theorem ne_failed_of_run {r : Result} (h : r = .next t) (hrun : t.run ≠ .error) {kind : ErrorKind} {ir : Byte}
    {detail : Option Nat} : r ≠ failed s kind ir detail := by
  rintro rfl
  cases h
  exact hrun rfl

/-- A CALL that does not raise has stored a `next` that is a byte, and has jumped. -/
theorem call_completes (h : exec (.call v a) s = .next t) (hrun : t.run ≠ .error) :
    nextOf s v ≤ 255 ∧
      ∃ target, t = (s.decSp.write s.decSp.sp (BitVec.ofNat 8 (nextOf s v))).setPc target := by
  have ha : a.toNat ≤ 7 := Nat.le_of_not_lt fun hlarge => ne_failed_of_run h hrun (exec_call_of_large hlarge)
  have hnext : nextOf s v ≤ 255 :=
    Nat.le_of_not_lt fun hlarge => ne_failed_of_run h hrun (exec_call_of_next_gt ha hlarge)
  have hcall := exec_call_of_index (ra := ⟨a.toNat, by omega⟩) rfl hnext
  exact ⟨hnext, _, Host.Outcome.next.inj (h.symm.trans hcall)⟩

/-- RET, its effect in the operations of the model. -/
theorem exec_ret (v : OperandCount) (s : State) : exec (.ret v) s = .next (s.setPc (s.read s.sp)).incSp := rfl

end

/-- Settles O25: the new stack pointer is one less modulo 256. -/
theorem callStoresTheReturnAddress : Obligations.CallStoresTheReturnAddress := by
  refine ⟨fun v a b => decodeBytes_controlOpcode v _ a b, fun v a ra s ha hnext => ?_, fun _ _ _ => exec_call_of_large,
    fun _ _ _ => exec_call_of_next_gt⟩
  rw [exec_call_of_index ha hnext, State.sp_decSp, State.decSp_eq]
  rfl

/-- Settles O26: the new stack pointer is one more modulo 256. -/
theorem retPopsTheReturnAddress : Obligations.RetPopsTheReturnAddress := by
  refine ⟨fun v a b => decodeBytes_controlOpcode v _ a b, fun v s => ?_⟩
  rw [exec_ret, State.incSp_eq]
  rfl

/-- Settles O44: RET reads the byte CALL stored, and its increment of the stack pointer undoes CALL's decrement
(95_test_vectors.md S5). -/
theorem callThenRetReturnsAfterTheCall : Obligations.CallThenRetReturnsAfterTheCall := by
  intro v v' a s t hcall hrun
  obtain ⟨hnext, target, rfl⟩ := call_completes hcall hrun
  refine ⟨_, exec_ret v' _, ?pc, ?registers⟩
  case pc =>
    rw [State.incSp_pc, State.setPc_pc, State.sp_setPc, State.read_setPc, State.sp_write, State.read_write_same]
    exact Nat.mod_eq_of_lt (by omega)
  case registers => exact (State.incSp_x_congr (t := s.decSp) rfl).trans (congrArg State.x s.incSp_decSp)

end Sys2Proof.Machine
end

section
/-! ## The errors of a step (60_exceptions.md)

`instrError` says per instruction which error it raises first; `exec_raisesExactly` ties it to `exec`, and
`firstError_eq_instrError` to the checks over the bits of the fetched bytes. -/

namespace Sys2Proof

/-! ### The bits of an opcode byte made of fields, as the checks read them (30_encoding.md R46) -/

section
variable (v : BitVec 2) (A C : Bool) (code : BitVec 4)

@[simp] theorem toNat_div_opcodeByte : (opcodeByte v A C code).toNat / 64 = v.toNat := by
  revert v A C code; decide

@[simp] theorem toNat_mod_opcodeByte : (opcodeByte v A C code).toNat % 16 = code.toNat := by
  revert v A C code; decide

@[simp] theorem bit_five_opcodeByte : (opcodeByte v A C code)[5] = A := fieldAlu_opcodeByte v A C code

@[simp] theorem bit_four_opcodeByte : (opcodeByte v A C code)[4] = C := fieldControl_opcodeByte v A C code

end

theorem toNat_div_countThree (low : BitVec 6) : (0b11#2 ++ low : BitVec 8).toNat / 64 = 3 := by
  revert low; decide

@[simp] theorem bits_toNat_ne_three (v : OperandCount) : v.bits.toNat ≠ 3 := by
  cases v <;> decide

/-! The codes that no table lists, as numbers (R54). -/

theorem toNat_of_not_mem_controlCodes {code : BitVec 4} (h : code ∉ controlCodes) :
    code.toNat ≠ 0 ∧ code.toNat ≠ 1 ∧ code.toNat ≠ 4 ∧ code.toNat ≠ 5 ∧ code.toNat ≠ 6 := by
  revert code; decide

theorem toNat_of_not_mem_primaryCodes {code : BitVec 4} (h : code ∉ primaryCodes) :
    code.toNat ≠ 1 ∧ code.toNat ≠ 2 ∧ code.toNat ≠ 5 ∧ code.toNat ≠ 6 ∧ code.toNat ≠ 7 := by
  revert code; decide

/-- Every byte has `v = 3` or is a byte of one of the three classes (R46, R47). -/
theorem opcode_cases (ir : Byte) :
    (∃ low : BitVec 6, ir = 0b11#2 ++ low) ∨ (∃ v c code, ir = aluByte v c code) ∨
      (∃ v code, ir = controlByte v code) ∨ ∃ v code, ir = primaryByte v code := by
  have hfields := opcodeByte_fields ir
  cases hv : operandCount? (fieldCount ir) with
  | none => exact .inl ⟨_, (opcode_illegalCount hv).symm⟩
  | some v =>
    rw [← bits_of_operandCount? hv] at hfields
    cases hA : fieldAlu ir with
    | true => exact .inr (.inl ⟨v, _, _, by rw [← hfields, hA]; rfl⟩)
    | false =>
      cases hC : fieldControl ir with
      | true => exact .inr (.inr (.inl ⟨v, _, by rw [← hfields, hA, hC]; rfl⟩))
      | false => exact .inr (.inr (.inr ⟨v, _, by rw [← hfields, hA, hC]; rfl⟩))

end Sys2Proof

namespace Sys2Proof.Machine

open Sys2Proof Sys2Proof.Claims

/-! ### Which error an instruction raises first (R117) -/

/-- The check of a register operand byte, before what `rest` checks (40_fetch_decode_dispatch.md R67). -/
def checkReg (operand : Byte) (rest : Option (ErrorKind × Option Nat)) : Option (ErrorKind × Option Nat) :=
  if 7 < operand.toNat then some (.addressOutOfRange, some operand.toNat) else rest

/-- The check of `next`, the last of all (40_fetch_decode_dispatch.md R68). -/
def checkNext (s : State) (v : OperandCount) : Option (ErrorKind × Option Nat) :=
  if 255 < s.pc.toNat + (v.bits.toNat + 1) then some (.addressOutOfRange, some 256) else none

/-- The check of a divisor, in the register `b` names, before that of `next` (R114, R117). -/
def checkDivisor (s : State) (v : OperandCount) (b : Byte) : Option (ErrorKind × Option Nat) :=
  if s.reg (Fin.ofNat 8 b.toNat) = 0 then some (.divisionByZero, none) else checkNext s v

/-- The first error an instruction raises in `s`, once fetched. -/
def instrError (s : State) : Instr → Option (ErrorKind × Option Nat)
  | .halt _ | .ret _ => none
  | .loadImmediate v a _ | .push v a | .pop v a | .print v a => checkReg a (checkNext s v)
  | .inc v _ a | .dec v _ a | .not v _ a | .call v a => checkReg a (checkNext s v)
  | .add v _ a b | .sub v _ a b | .mul v _ a b | .cmp v _ a b | .and v _ a b | .or v _ a b | .xor v _ a b
  | .shl v _ a b | .shr v _ a b | .tst v _ a b => checkReg a (checkReg b (checkNext s v))
  | .div v _ a b | .mod v _ a b => checkReg a (checkReg b (checkDivisor s v b))
  | .jmp _ a => checkReg a none
  | .jeq v a => checkReg a (if s.flagE then none else checkNext s v)
  | .jne v a => checkReg a (if s.flagE then checkNext s v else none)
  | .illegalCount _ | .illegalPrimary _ _ => some (.unsupportedInstruction, none)
  | .illegalAlu _ _ => some (.unsupportedALUOperation, none)
  | .illegalControl _ _ => some (.unsupportedControlOp, none)

/-- The outcome is the failure given, or, when none is, a next state that is not in ERROR and has no new record. -/
def RaisesExactly (s : State) (ir : Byte) (r : Result) : Option (ErrorKind × Option Nat) → Prop
  | some (kind, detail) => r = failed s kind ir detail
  | none => ∃ t, r = .next t ∧ t.run ≠ .error ∧ t.err = s.err

section
variable {s : State} {ir a b : Byte} {v : OperandCount} {error : Option (ErrorKind × Option Nat)}

theorem RaisesExactly.withReg {k : Fin 8 → Result}
    (h : ∀ ra : Fin 8, a.toNat = ra.val → RaisesExactly s ir (k ra) error) :
    RaisesExactly s ir (withReg ir a s k) (checkReg a error) := by
  obtain ⟨ra, ha, heq⟩ | ⟨hlarge, heq⟩ := withReg_cases ir a s k
  · rw [heq, checkReg, if_neg (by omega)]
    exact h ra ha
  · rw [heq, checkReg, if_pos hlarge]
    rfl

/-- A next state with `run` and `err` as they were in a running machine: nothing was raised. -/
theorem RaisesExactly.next {t : State} (hrun : s.run = .running) (hkeeps : t.run = s.run ∧ t.err = s.err) :
    RaisesExactly s ir (.next t) none :=
  ⟨t, rfl, by simp [hkeeps.1, hrun], hkeeps.2⟩

theorem RaisesExactly.withNext {k : Byte → Result} (h : ∀ next, RaisesExactly s ir (k next) none) :
    RaisesExactly s ir (withNext ir v s k) (checkNext s v) := by
  by_cases hnext : 255 < s.pc.toNat + (v.bits.toNat + 1)
  · rw [withNext_of_gt hnext, checkNext, if_pos hnext]
    rfl
  · rw [withNext_of_le (Nat.not_lt.mp hnext), checkNext, if_neg hnext]
    exact h _

theorem RaisesExactly.advance {done : State} (hrun : s.run = .running)
    (hkeeps : done.run = s.run ∧ done.err = s.err) :
    RaisesExactly s ir (advance ir v s done) (checkNext s v) :=
  .withNext fun _ => .next hrun hkeeps

/-- The ALU answers no error. -/
def AluAnswer.Completes (answer : AluAnswer) : Prop := answer ≠ .divisionByZero ∧ answer ≠ .unsupported

theorem RaisesExactly.commitAlu (hrun : s.run = .running) {ra : Fin 8} {answer : AluAnswer}
    (h : answer.Completes) : RaisesExactly s ir (commitAlu ir v ra s answer) (checkNext s v) := by
  obtain ⟨hdivision, hunsupported⟩ := h
  cases answer with
  | result value => exact .advance hrun ⟨rfl, rfl⟩
  | flags f => exact .advance hrun ⟨rfl, rfl⟩
  | observe pass => exact .advance hrun ⟨rfl, rfl⟩
  | divisionByZero => exact absurd rfl hdivision
  | unsupported => exact absurd rfl hunsupported

theorem RaisesExactly.aluOne (hrun : s.run = .running) {op : Byte → AluAnswer} (hop : ∀ va, (op va).Completes) :
    RaisesExactly s ir (aluOne op ir v a s) (checkReg a (checkNext s v)) :=
  .withReg fun _ _ => .commitAlu hrun (hop _)

theorem RaisesExactly.aluTwo (hrun : s.run = .running) {op : Byte → Byte → AluAnswer}
    (hop : ∀ va vb, (op va vb).Completes) :
    RaisesExactly s ir (aluTwo op ir v a b s) (checkReg a (checkReg b (checkNext s v))) :=
  .withReg fun _ _ => .withReg fun _ _ => .commitAlu hrun (hop _ _)

/-- An operation that answers `divisionByZero` exactly for a second value of 0 checks the divisor before `next`. -/
theorem RaisesExactly.division (hrun : s.run = .running) {op : Byte → Byte → AluAnswer}
    (hzero : ∀ va, op va 0 = .divisionByZero) (hvalue : ∀ va vb, vb ≠ 0 → (op va vb).Completes) :
    RaisesExactly s ir (Machine.aluTwo op ir v a b s) (checkReg a (checkReg b (checkDivisor s v b))) :=
  .withReg fun ra _ => .withReg fun rb hb => by
    have hrb : Fin.ofNat 8 b.toNat = rb := by rw [hb]; exact Fin.ofNat_val_eq_self rb
    rw [checkDivisor, hrb]
    split
    case isTrue hdivisor =>
      simp only [hdivisor, hzero]
      rfl
    case isFalse hdivisor => exact .commitAlu hrun (hvalue _ _ hdivisor)

end

theorem aluDiv_completes (va : Byte) {vb : Byte} (h : vb ≠ 0) : (aluDiv va vb).Completes := by
  rw [aluDiv_of_ne_zero va fun h0 => h (BitVec.eq_of_toNat_eq h0)]
  exact ⟨nofun, nofun⟩

theorem aluMod_completes (va : Byte) {vb : Byte} (h : vb ≠ 0) : (aluMod va vb).Completes := by
  rw [aluMod_of_ne_zero va fun h0 => h (BitVec.eq_of_toNat_eq h0)]
  exact ⟨nofun, nofun⟩

/-- A running instruction raises its first error, and completes when it has none. -/
theorem exec_raisesExactly {s : State} (hrun : s.run = .running) (i : Instr) :
    RaisesExactly s i.opcode (exec i s) (instrError s i) := by
  cases i with
  | halt v => exact ⟨s.halt, rfl, by simp, rfl⟩
  | ret v => exact .next hrun ⟨rfl, rfl⟩
  | loadImmediate | push | pop | print => exact .withReg fun _ _ => .advance hrun ⟨rfl, rfl⟩
  | inc | dec | not => exact .aluOne hrun fun _ => ⟨nofun, nofun⟩
  | add | sub | mul | cmp | and | or | xor | shl | shr | tst => exact .aluTwo hrun fun _ _ => ⟨nofun, nofun⟩
  | div => exact .division hrun (fun _ => rfl) fun va _ => aluDiv_completes va
  | mod => exact .division hrun (fun _ => rfl) fun va _ => aluMod_completes va
  | call => exact .withReg fun _ _ => .withNext fun _ => .next hrun ⟨rfl, rfl⟩
  | jmp => exact .withReg fun _ _ => .next hrun ⟨rfl, rfl⟩
  | jeq =>
    refine .withReg fun _ _ => ?_
    split
    · exact .next hrun ⟨rfl, rfl⟩
    · exact .advance hrun ⟨rfl, rfl⟩
  | jne =>
    refine .withReg fun _ _ => ?_
    split
    · exact .advance hrun ⟨rfl, rfl⟩
    · exact .next hrun ⟨rfl, rfl⟩
  | illegalCount | illegalAlu | illegalControl | illegalPrimary => rfl

/-! ### The checks over the bits of the fetched bytes are those of the instruction fetched

One lemma per class of opcode byte, split along the class's table: with the code known, each condition on the bits is
true, false, or the instruction's own. The operand bytes are named, their addresses written as `simp` leaves them. -/

section
variable {s : State} {v : OperandCount} {a b : Byte} (hfetch : ¬ 253 < s.pc.toNat)
include hfetch

theorem firstError_of_countThree {low : BitVec 6} (hir : s.read s.pc = 0b11#2 ++ low) :
    firstError s = some (.unsupportedInstruction, none) := by
  simp [firstError, hfetch, hir, toNat_div_countThree]

theorem firstError_of_alu {c : Bool} {code : BitVec 4} (hir : s.read s.pc = aluByte v c code)
    (ha : s.read (s.pc + 1#8) = a) (hb : s.read (s.pc + 2#8) = b) :
    firstError s = instrError s (decodeAlu v c code a b) := by
  unfold decodeAlu
  split
  case h_16 =>
    obtain rfl : code = 0b1110 := by clear hir hfetch ha hb; decide +revert
    simp [firstError, hfetch, hir, aluByte, instrError]
  all_goals simp [firstError, hfetch, hir, ha, hb, aluByte, instrError, checkReg, checkNext, checkDivisor]

theorem firstError_of_control {code : BitVec 4} (hir : s.read s.pc = controlByte v code)
    (ha : s.read (s.pc + 1#8) = a) : firstError s = instrError s (decodeControl v code a) := by
  unfold decodeControl
  split
  case h_4 | h_5 =>
    cases hE : s.fl[0] <;>
      simp [firstError, hfetch, hir, ha, controlByte, instrError, checkReg, checkNext, State.flagE, hE]
  case h_6 =>
    have hunlisted := toNat_of_not_mem_controlCodes (code := code) (by simp_all [controlCodes])
    simp [firstError, hfetch, hir, controlByte, instrError, hunlisted]
  all_goals simp [firstError, hfetch, hir, ha, controlByte, instrError, checkReg, checkNext]

theorem firstError_of_primary {code : BitVec 4} (hir : s.read s.pc = primaryByte v code)
    (ha : s.read (s.pc + 1#8) = a) : firstError s = instrError s (decodePrimary v code a b) := by
  unfold decodePrimary
  split
  case h_6 =>
    have hunlisted := toNat_of_not_mem_primaryCodes (code := code) (by simp_all [primaryCodes])
    simp [firstError, hfetch, hir, primaryByte, instrError, hunlisted]
  all_goals simp [firstError, hfetch, hir, ha, primaryByte, instrError, checkReg, checkNext]

end

/-- Past the fetch, the first check that fails is that of the instruction fetched. -/
theorem firstError_eq_instrError {s : State} (hfetch : ¬ 253 < s.pc.toNat) :
    firstError s = instrError s (fetchInstr s) := by
  obtain ⟨low, hir⟩ | ⟨v, c, code, hir⟩ | ⟨v, code, hir⟩ | ⟨v, code, hir⟩ := opcode_cases (s.read s.pc)
  · rw [firstError_of_countThree hfetch hir, fetchInstr, hir, decodeBytes_countThree]
    rfl
  · rw [firstError_of_alu hfetch hir rfl rfl, fetchInstr, hir, decodeBytes_aluByte]
    rfl
  · rw [firstError_of_control hfetch hir rfl, fetchInstr, hir, decodeBytes_controlByte]
    rfl
  · rw [firstError_of_primary hfetch hir rfl, fetchInstr, hir, decodeBytes_primaryByte]
    rfl

/-- A fetch out of range is the first check of all. -/
theorem firstError_of_outOfRange {s : State} (hpc : 253 < s.pc.toNat) :
    firstError s = some (.addressOutOfRange, some 256) := if_pos hpc

/-- A running machine's step raises the first error whose condition holds, and no other (R117). -/
theorem step_raisesExactly {s : State} (hrun : s.run = .running) :
    RaisesExactly s (s.read s.pc) (step s) (firstError s) := by
  by_cases hpc : 253 < s.pc.toNat
  · rw [firstError_of_outOfRange hpc]
    exact step_of_outOfRange hrun hpc
  · rw [step_of_inRange hrun (Nat.not_lt.mp hpc), firstError_eq_instrError hpc, ← opcode_fetchInstr]
    exact exec_raisesExactly hrun _

/-- Settles O37: out of range the fetch raises, in range the instruction fetched does. -/
theorem stepRaisesExactlyTheFirstError : Obligations.StepRaisesExactlyTheFirstError :=
  fun _ hrun => step_raisesExactly hrun

/-! ### What an error leaves (R116, R118) -/

/-- A step that ends in ERROR has entered it as every error is entered, with the byte at `pc`. -/
theorem step_error {s t : State} (h : step s = .next t) (herror : t.run = .error) :
    ∃ kind detail, t = errorState kind (s.read s.pc) detail s := by
  obtain ⟨hrun, ⟨-, hexec⟩ | ⟨-, rfl⟩⟩ := step_cases h
  · obtain hcommits | ⟨kind, detail, -, rfl⟩ := exec_cases hexec
    · obtain ⟨hkeeps, -⟩ | ⟨-, rfl⟩ := hcommits.run_err
      · simp [hkeeps, hrun] at herror
      · cases herror
    · exact ⟨kind, detail, by rw [opcode_fetchInstr]⟩
  · exact ⟨_, _, rfl⟩

theorem step_of_run_error {s : State} (h : s.run = .error) : step s = .fault .inError := by
  simp [step, h]

/-- Settles O36: the error record is that of the step's own entry, and the ERROR state takes no step. -/
theorem errorsCommitNothing : Obligations.ErrorsCommitNothing :=
  fun _ _ h herror => ⟨step_error h herror, step_of_run_error herror⟩

end Sys2Proof.Machine
end

section
/-! ## Load, reset and the end of a run (70_reset_and_hazards.md)

What memory holds after a load, byte by byte; the reset by the host; no step in HALTED or in ERROR. -/

namespace Sys2Proof.Machine

open Sys2Proof.Claims

/-! ### The load port (R133 to R135) -/

/-- Loading leaves the bytes below the base address alone. -/
theorem Memory.read_loadFrom_of_lt (m : Memory) {base a : Nat} (h : a < base) (program : List Byte) :
    (m.loadFrom base program).read a = m.read a := by
  induction program generalizing m base with
  | nil => rfl
  | cons b rest ih =>
    calc ((m.write base b).loadFrom (base + 1) rest).read a
      _ = (m.write base b).read a := ih _ (by omega)
      _ = m.read a := Memory.read_write_ne m (by omega) b

/-- From the base address on stands the program, and behind it what stood there before. -/
theorem Memory.read_loadFrom_add (m : Memory) (base i : Nat) (program : List Byte) :
    (m.loadFrom base program).read (base + i) = program.getD i (m.read (base + i)) := by
  induction program generalizing m base i with
  | nil => rfl
  | cons b rest ih =>
    cases i with
    | zero => exact (Memory.read_loadFrom_of_lt _ (by omega) rest).trans (Memory.read_write_same m base b)
    | succ i =>
      have haddr : base + (i + 1) = base + 1 + i := by omega
      calc ((m.write base b).loadFrom (base + 1) rest).read (base + (i + 1))
        _ = rest.getD i ((m.write base b).read (base + (i + 1))) := haddr ▸ ih _ (base + 1) i
        _ = rest.getD i (m.read (base + (i + 1))) := by rw [Memory.read_write_ne m (by omega) b]

theorem load_of_le {program : List Byte} (h : program.length ≤ 256) :
    load program = some { State.reset with mem := State.reset.mem.loadFrom 0 program } :=
  if_pos h

theorem load_of_gt {program : List Byte} (h : 256 < program.length) : load program = none :=
  if_neg (Nat.not_le.mpr h)

/-- Settles O52: the load keeps the canonical form of the empty memory, and a byte it does not write reads 0 there. -/
theorem loadPlacesTheProgramFromAddressZero : Obligations.LoadPlacesTheProgramFromAddressZero := by
  refine fun program => ⟨fun hfit => ⟨_, load_of_le hfit, ?wf, rfl, fun addr => ?bytes⟩, load_of_gt⟩
  case wf => exact Memory.wf_loadFrom reset_memory_wf 0 program (by rwa [Nat.zero_add])
  case bytes =>
    have hread := Memory.read_loadFrom_add State.reset.mem 0 addr.toNat program
    rwa [Nat.zero_add] at hread

/-! ### The end of a run, and the host's reset (R130, R142) -/

theorem step_of_run_halted {s : State} (h : s.run = .halted) : step s = .fault .halted := by
  simp [step, h]

/-- Settles O9: the run state alone decides that there is no step. -/
theorem noStepAfterTheEnd : Obligations.NoStepAfterTheEnd :=
  fun _ => ⟨step_of_run_halted, step_of_run_error⟩

/-- Settles O55: the reset state is a running one, and every running machine steps. -/
theorem hostResetRestartsTheMachine : Obligations.HostResetRestartsTheMachine :=
  fun s => ⟨rfl, runningMachineAlwaysSteps (hostReset s) rfl⟩

end Sys2Proof.Machine
end

section
/-! ## The opcode table as a second description of the decoder (30_encoding.md, opening paragraph) -/

namespace Sys2Proof

open Laws

/-- The first row of the table that fits an instruction's own opcode byte is the instruction's. -/
theorem tableOperation_opcode : ∀ {i : Instr}, i.wf = true → tableOperation i.opcode = some i.operation
  | .halt v => OpcodeRow.halt v
  | .loadImmediate v a imm => OpcodeRow.loadImmediate v a imm
  | .push v a => OpcodeRow.push v a
  | .pop v a => OpcodeRow.pop v a
  | .print v a => OpcodeRow.print v a
  | .add v c a b => OpcodeRow.add v c a b
  | .sub v c a b => OpcodeRow.sub v c a b
  | .mul v c a b => OpcodeRow.mul v c a b
  | .div v c a b => OpcodeRow.div v c a b
  | .mod v c a b => OpcodeRow.mod v c a b
  | .inc v c a => OpcodeRow.inc v c a
  | .dec v c a => OpcodeRow.dec v c a
  | .cmp v c a b => OpcodeRow.cmp v c a b
  | .and v c a b => OpcodeRow.and v c a b
  | .not v c a => OpcodeRow.not v c a
  | .or v c a b => OpcodeRow.or v c a b
  | .xor v c a b => OpcodeRow.xor v c a b
  | .shl v c a b => OpcodeRow.shl v c a b
  | .shr v c a b => OpcodeRow.shr v c a b
  | .tst v c a b => OpcodeRow.tst v c a b
  | .call v a => OpcodeRow.call v a
  | .ret v => OpcodeRow.ret v
  | .jmp v a => OpcodeRow.jmp v a
  | .jeq v a => OpcodeRow.jeq v a
  | .jne v a => OpcodeRow.jne v a
  | .illegalCount low => OpcodeRow.illegalCount low
  | .illegalAlu v c => OpcodeRow.illegalAlu v c
  | .illegalControl v code => OpcodeRow.illegalControl v code
  | .illegalPrimary v code => OpcodeRow.illegalPrimary v code

/-- Settles O3: the decoded instruction is well formed and its opcode byte is the byte decoded, so its row is the byte's. -/
theorem fieldDecodingAgreesWithTheOpcodeTable : Obligations.FieldDecodingAgreesWithTheOpcodeTable := by
  intro ir a b
  obtain ⟨hwf, hopcode, -⟩ := decodedInstructionKeepsItsBytes ir a b
  rw [← tableOperation_opcode hwf, hopcode]

end Sys2Proof
end

section
/-! ## The canonical form of memory names its bytes (20_memory.md section 1; assumption 9)

A canonical memory lists exactly the addresses that do not read as at reset, each with the byte read there; two that read
the same therefore have the same entries, and the rising order leaves one list of them. -/

namespace Sys2Proof.Machine

/-- An entry of a memory in rising order is what its address reads. -/
theorem Memory.read_of_mem {m : Memory} (hrising : m.Pairwise (fun c d => c.1 < d.1)) {c : Host.Cell} (hc : c ∈ m) :
    m.read c.1 = c.2 := by
  induction m with
  | nil => cases hc
  | cons d rest ih =>
    obtain ⟨hhead, hrest⟩ := List.pairwise_cons.mp hrising
    obtain rfl | hc := List.mem_cons.mp hc
    · exact if_pos rfl
    · exact (if_neg (hhead c hc).ne).trans (ih hrest hc)

/-- An address that does not read as at reset is listed, with the byte it reads. -/
theorem Memory.mem_of_read {m : Memory} {c : Host.Cell} (hread : m.read c.1 = c.2) (hne : c.2 ≠ Config.memReset) :
    c ∈ m := by
  induction m with
  | nil => exact absurd hread.symm hne
  | cons d rest ih =>
    by_cases hd : d.1 = c.1
    · have hbyte : d.2 = c.2 := (if_pos hd).symm.trans hread
      exact List.mem_cons.mpr (.inl (Prod.ext hd hbyte).symm)
    · exact List.mem_cons_of_mem d (ih ((if_neg hd).symm.trans hread))

/-- The entries of a canonical memory stand in every memory that reads the same. -/
theorem Memory.subset_of_read_eq {m m' : Memory} (h : m.wf = true)
    (hread : ∀ addr : Byte, m.read addr.toNat = m'.read addr.toNat) : m ⊆ m' := by
  obtain ⟨hrising, hentries⟩ := (Memory.wf_iff m).mp h
  intro c hc
  obtain ⟨haddr, hne⟩ := hentries c hc
  have hsame : m.read c.1 = m'.read c.1 := BitVec.toNat_ofNatLT (w := 8) c.1 haddr ▸ hread (.ofNatLT c.1 haddr)
  exact Memory.mem_of_read (hsame.symm.trans (Memory.read_of_mem hrising hc)) hne

/-- Canonical memories that read the same at every address are the same list. -/
theorem Memory.eq_of_read_eq {m m' : Memory} (h : m.wf = true) (h' : m'.wf = true)
    (hread : ∀ addr : Byte, m.read addr.toNat = m'.read addr.toNat) : m = m' := by
  obtain ⟨hrising, -⟩ := (Memory.wf_iff m).mp h
  obtain ⟨hrising', -⟩ := (Memory.wf_iff m').mp h'
  have hasymm : Std.Asymm (fun c d : Host.Cell => c.1 < d.1) := ⟨fun _ _ => Nat.lt_asymm⟩
  exact (Memory.subset_of_read_eq h hread).antisymm_of_pairwise hrising hrising'
    (Memory.subset_of_read_eq h' fun addr => (hread addr).symm)

/-- Settles O49: a write keeps the form, and the form leaves one list for the bytes read. -/
theorem canonicalMemoriesWithEqualBytesAreEqual : Obligations.CanonicalMemoriesWithEqualBytesAreEqual :=
  ⟨fun _ addr v hwf => State.wf_write hwf addr v, fun _ _ => Memory.eq_of_read_eq⟩

end Sys2Proof.Machine
end
